-- ==== Sys2Proof/Word.lean ====
section
/-! DEFINITION. The word types of the core (00_scope.md R7, R9). -/

namespace Sys2Proof

/-- A byte: a general register, a timer, a memory byte (R7). -/
abbrev Byte := BitVec 8

/-- A 16-bit word: PC, I, an instruction, a stack entry, the input latch (R7). -/
abbrev Word := BitVec 16

/-- A display row: 64 pixels, pixel x at bit `63 - x` (10_state.md R25). -/
abbrev Row := BitVec 64

/-- A register index X or Y, or the key index of FX0A (30_encoding.md R56). -/
abbrev Reg := Fin 16

/-- The index of VF (10_state.md R16). -/
abbrev vf : Reg := 15

end Sys2Proof
end

