-- ==== Sys2Proof/Syntax.lean ====
section
/-! DEFINITION. The instructions, one constructor per row of spec/opcode_table.json (30_encoding.md R59). Fields the
decoder ignores are kept, so that no bit of a word is lost (R69). -/

namespace Sys2Proof

inductive Instr where
  /-- `0000` NOP (40_control_unit.md R74). -/
  | nop
  /-- `0XE0` CLS, X ignored (44_display.md R107). -/
  | cls (x : Reg)
  /-- `0XEE` RET, X ignored (41_control_flow.md R79). -/
  | ret (x : Reg)
  /-- `1NNN` JP nnn (R80). -/
  | jp (nnn : BitVec 12)
  /-- `2NNN` CALL nnn (R81). -/
  | call (nnn : BitVec 12)
  /-- `3XNN` SE Vx, nn (R82). -/
  | seImm (x : Reg) (nn : Byte)
  /-- `4XNN` SNE Vx, nn (R83). -/
  | sneImm (x : Reg) (nn : Byte)
  /-- `5XYN` SE Vx, Vy, N ignored (R84). -/
  | seReg (x y : Reg) (n : BitVec 4)
  /-- `6XNN` LD Vx, nn (42_alu.md R88). -/
  | ldImm (x : Reg) (nn : Byte)
  /-- `7XNN` ADD Vx, nn (R89). -/
  | addImm (x : Reg) (nn : Byte)
  /-- `8XY0` LD Vx, Vy (R90). -/
  | ldReg (x y : Reg)
  /-- `8XY1` OR Vx, Vy (R91). -/
  | orReg (x y : Reg)
  /-- `8XY2` AND Vx, Vy (R92). -/
  | andReg (x y : Reg)
  /-- `8XY3` XOR Vx, Vy (R93). -/
  | xorReg (x y : Reg)
  /-- `8XY4` ADD Vx, Vy (R94). -/
  | addReg (x y : Reg)
  /-- `8XY5` SUB Vx, Vy (R95). -/
  | subReg (x y : Reg)
  /-- `8XY6` SHR Vx, Vy (R96). -/
  | shr (x y : Reg)
  /-- `8XY7` SUBN Vx, Vy (R97). -/
  | subn (x y : Reg)
  /-- `8XYE` SHL Vx, Vy (R98). -/
  | shl (x y : Reg)
  /-- `9XYN` SNE Vx, Vy, N ignored (41_control_flow.md R85). -/
  | sneReg (x y : Reg) (n : BitVec 4)
  /-- `ANNN` LD I, nnn (43_index_memory.md R101). -/
  | ldI (nnn : BitVec 12)
  /-- `BNNN` JP V0, nnn; under `Modern` the register is X, the top nibble of nnn (41_control_flow.md R86). -/
  | jpV0 (nnn : BitVec 12)
  /-- `CXNN` RND Vx, nn (42_alu.md R99). -/
  | rnd (x : Reg) (nn : Byte)
  /-- `DXYN` DRW Vx, Vy, n (44_display.md R108, R109). -/
  | drw (x y : Reg) (n : BitVec 4)
  /-- `EX9E` SKP Vx (45_timers_input.md R113). -/
  | skp (x : Reg)
  /-- `EXA1` SKNP Vx (R114). -/
  | sknp (x : Reg)
  /-- `FX07` LD Vx, DT (R110). -/
  | ldVxDT (x : Reg)
  /-- `FX0A` WKEY x: X is the key index itself (R115). -/
  | wkey (x : Reg)
  /-- `FX15` LD DT, Vx (R111). -/
  | ldDT (x : Reg)
  /-- `FX18` LD ST, Vx (R112). -/
  | ldST (x : Reg)
  /-- `FX1E` ADD I, Vx (43_index_memory.md R102). -/
  | addI (x : Reg)
  /-- `FX29` LD F, Vx (R103). -/
  | ldF (x : Reg)
  /-- `FX33` LD B, Vx (R104). -/
  | ldB (x : Reg)
  /-- `FX55` LD [I], Vx (R105). -/
  | storeRegs (x : Reg)
  /-- `FX65` LD Vx, [I] (R106). -/
  | loadRegs (x : Reg)
  /-- Every word of 30_encoding.md R62, held whole (40_control_unit.md R75). -/
  | unrecognized (w : Word)
  deriving DecidableEq, Repr

end Sys2Proof
end

