-- ==== Sys2Proof/Decode.lean ====
section
/-! DEFINITION. The decoder and the encoder (30_encoding.md). Decoding is total on words (R55, R73); a byte list is
rejected, by name, only when it holds no whole word (R53). -/

namespace Sys2Proof

/-! ### The fields of a word (R54) -/

/-- `family`, bits 15..12. -/
def familyOf (w : Word) : BitVec 4 := w.extractLsb' 12 4

/-- `X`, bits 11..8, as a register or key index. -/
def fieldX (w : Word) : Reg := (w.extractLsb' 8 4).toFin

/-- `Y`, bits 7..4. -/
def fieldY (w : Word) : Reg := (w.extractLsb' 4 4).toFin

/-- `N`, bits 3..0. -/
def fieldN (w : Word) : BitVec 4 := w.extractLsb' 0 4

/-- `NN`, bits 7..0. -/
def fieldNN (w : Word) : Byte := w.extractLsb' 0 8

/-- `NNN`, bits 11..0. -/
def fieldNNN (w : Word) : BitVec 12 := w.extractLsb' 0 12

/-! ### Dispatch on family and secondary key (R58 to R62) -/

/-- Family 0x0, in the order of R60. -/
def decodeFamily0 (w : Word) : Instr :=
  if w = 0x0000 then .nop
  else if fieldNN w = 0xE0 then .cls (fieldX w)
  else if fieldNN w = 0xEE then .ret (fieldX w)
  else .unrecognized w

/-- Family 0x8, keyed by N (R58, R59). -/
def decodeFamily8 (w : Word) : Instr :=
  match fieldN w with
  | 0x0#4 => .ldReg (fieldX w) (fieldY w)
  | 0x1#4 => .orReg (fieldX w) (fieldY w)
  | 0x2#4 => .andReg (fieldX w) (fieldY w)
  | 0x3#4 => .xorReg (fieldX w) (fieldY w)
  | 0x4#4 => .addReg (fieldX w) (fieldY w)
  | 0x5#4 => .subReg (fieldX w) (fieldY w)
  | 0x6#4 => .shr (fieldX w) (fieldY w)
  | 0x7#4 => .subn (fieldX w) (fieldY w)
  | 0xE#4 => .shl (fieldX w) (fieldY w)
  | _     => .unrecognized w

/-- Family 0xE, keyed by NN. -/
def decodeFamilyE (w : Word) : Instr :=
  match fieldNN w with
  | 0x9E#8 => .skp (fieldX w)
  | 0xA1#8 => .sknp (fieldX w)
  | _      => .unrecognized w

/-- Family 0xF, keyed by NN. FX29 decodes to its own row whatever `FX29_PRESENT` says; its meaning looks (log 5). -/
def decodeFamilyF (w : Word) : Instr :=
  match fieldNN w with
  | 0x07#8 => .ldVxDT (fieldX w)
  | 0x0A#8 => .wkey (fieldX w)
  | 0x15#8 => .ldDT (fieldX w)
  | 0x18#8 => .ldST (fieldX w)
  | 0x1E#8 => .addI (fieldX w)
  | 0x29#8 => .ldF (fieldX w)
  | 0x33#8 => .ldB (fieldX w)
  | 0x55#8 => .storeRegs (fieldX w)
  | 0x65#8 => .loadRegs (fieldX w)
  | _      => .unrecognized w

/-- The opcode map (R59): every word falls in exactly one row (R73). -/
def decode (w : Word) : Instr :=
  match familyOf w with
  | 0x0#4 => decodeFamily0 w
  | 0x1#4 => .jp (fieldNNN w)
  | 0x2#4 => .call (fieldNNN w)
  | 0x3#4 => .seImm (fieldX w) (fieldNN w)
  | 0x4#4 => .sneImm (fieldX w) (fieldNN w)
  | 0x5#4 => .seReg (fieldX w) (fieldY w) (fieldN w)
  | 0x6#4 => .ldImm (fieldX w) (fieldNN w)
  | 0x7#4 => .addImm (fieldX w) (fieldNN w)
  | 0x8#4 => decodeFamily8 w
  | 0x9#4 => .sneReg (fieldX w) (fieldY w) (fieldN w)
  | 0xA#4 => .ldI (fieldNNN w)
  | 0xB#4 => .jpV0 (fieldNNN w)
  | 0xC#4 => .rnd (fieldX w) (fieldNN w)
  | 0xD#4 => .drw (fieldX w) (fieldY w) (fieldN w)
  | 0xE#4 => decodeFamilyE w
  | _     => decodeFamilyF w        -- 0xF, the one family left

/-! ### Bytes -/

/-- Why a byte list is rejected. -/
inductive DecodeError where
  /-- Fewer than the two bytes every instruction has (R53). -/
  | truncated
  deriving DecidableEq, Repr

/-- The word of a byte pair, the first byte the more significant (20_memory.md R40; log 15). -/
def wordOfBytes (hi lo : Byte) : Word := BitVec.ofNat 16 (hi.toNat * 0x100 + lo.toNat)

/-- The first, more significant, byte of a word as it is stored (R40). -/
def highByte (w : Word) : Byte := w.extractLsb' 8 8

/-- The second byte of a word as it is stored (R40). -/
def lowByte (w : Word) : Byte := w.extractLsb' 0 8

/-- The instruction a byte list begins with, and the rest of the list. -/
def decodeBytes : List Byte → Except DecodeError (Instr × List Byte)
  | hi :: lo :: rest => .ok (decode (wordOfBytes hi lo), rest)
  | [_]              => .error .truncated
  | []               => .error .truncated

/-! ### The encoder -/

/-- The word with the given family, X, Y and N (R54, R69). -/
def wordXYN (family : Nat) (x y : Reg) (n : Nat) : Word :=
  BitVec.ofNat 16 (family * 0x1000 + x.val * 0x100 + y.val * 0x10 + n)

/-- The word with the given family, X and NN. -/
def wordXNN (family : Nat) (x : Reg) (nn : Nat) : Word :=
  BitVec.ofNat 16 (family * 0x1000 + x.val * 0x100 + nn)

/-- The word with the given family and NNN. -/
def wordNNN (family : Nat) (nnn : BitVec 12) : Word :=
  BitVec.ofNat 16 (family * 0x1000 + nnn.toNat)

/-- The word of an instruction, from the patterns of R59. -/
def encode : Instr → Word
  | .nop            => 0x0000
  | .cls x          => wordXNN 0x0 x 0xE0
  | .ret x          => wordXNN 0x0 x 0xEE
  | .jp nnn         => wordNNN 0x1 nnn
  | .call nnn       => wordNNN 0x2 nnn
  | .seImm x nn     => wordXNN 0x3 x nn.toNat
  | .sneImm x nn    => wordXNN 0x4 x nn.toNat
  | .seReg x y n    => wordXYN 0x5 x y n.toNat
  | .ldImm x nn     => wordXNN 0x6 x nn.toNat
  | .addImm x nn    => wordXNN 0x7 x nn.toNat
  | .ldReg x y      => wordXYN 0x8 x y 0x0
  | .orReg x y      => wordXYN 0x8 x y 0x1
  | .andReg x y     => wordXYN 0x8 x y 0x2
  | .xorReg x y     => wordXYN 0x8 x y 0x3
  | .addReg x y     => wordXYN 0x8 x y 0x4
  | .subReg x y     => wordXYN 0x8 x y 0x5
  | .shr x y        => wordXYN 0x8 x y 0x6
  | .subn x y       => wordXYN 0x8 x y 0x7
  | .shl x y        => wordXYN 0x8 x y 0xE
  | .sneReg x y n   => wordXYN 0x9 x y n.toNat
  | .ldI nnn        => wordNNN 0xA nnn
  | .jpV0 nnn       => wordNNN 0xB nnn
  | .rnd x nn       => wordXNN 0xC x nn.toNat
  | .drw x y n      => wordXYN 0xD x y n.toNat
  | .skp x          => wordXNN 0xE x 0x9E
  | .sknp x         => wordXNN 0xE x 0xA1
  | .ldVxDT x       => wordXNN 0xF x 0x07
  | .wkey x         => wordXNN 0xF x 0x0A
  | .ldDT x         => wordXNN 0xF x 0x15
  | .ldST x         => wordXNN 0xF x 0x18
  | .addI x         => wordXNN 0xF x 0x1E
  | .ldF x          => wordXNN 0xF x 0x29
  | .ldB x          => wordXNN 0xF x 0x33
  | .storeRegs x    => wordXNN 0xF x 0x55
  | .loadRegs x     => wordXNN 0xF x 0x65
  | .unrecognized w => w

/-- The bytes of an instruction as they stand in memory (20_memory.md R40). -/
def encodeBytes (i : Instr) : List Byte := [highByte (encode i), lowByte (encode i)]

/-- The instruction the decoder reads from a table row's word: `w` holds `nbits` bits, bit 0 the least significant bit of
the one 16-bit word; the bytes are laid out most significant first and given to `decodeBytes`. No instruction has more
than 16 bits (R53). -/
def decodeTableWord (nbits w : Nat) : Option Instr :=
  if 16 < nbits then none
  else
    let word := BitVec.ofNat 16 (w % 2 ^ nbits)
    match decodeBytes [highByte word, lowByte word] with
    | .ok (i, _) => some i
    | .error _   => none

end Sys2Proof
end

