-- ==== Sys2Proof/Config.lean ====
section
/-! DEFINITION. The construction parameters (00_scope.md R4 to R8, 10_state.md R29) and the one free value
(42_alu.md R99). -/

namespace Sys2Proof

/-- The opcode-quirk flag (R4). -/
inductive Quirk where
  | legacy
  | modern
  deriving DecidableEq, Repr

/-- The keypad-layout flag, read by no rule (R5). -/
inductive KeypadLayout where
  | ordered
  | cosmac
  deriving DecidableEq, Repr

/-- What DXYN does at the display's edge (R8, 44_display.md R108, R109). -/
inductive SpriteEdge where
  | clip
  | wrap
  deriving DecidableEq, Repr

/-- The parameters fixed at construction (R29). `fontBase` is bounded by its type: `FONT_BASE + 80 <= 0x200` (R8). -/
structure Config where
  /-- `QUIRK` (R4). -/
  quirk        : Quirk
  /-- `KEYPAD_LAYOUT` (R5). -/
  keypadLayout : KeypadLayout
  /-- `CLOCK_RATE` in instructions per second; no rule depends on it (R6). -/
  clockRate    : Nat
  /-- `FONT_BASE` (R8, 10_state.md R27): 0 to 0x1B0. -/
  fontBase     : Fin 433
  /-- `FONT_DATA`, 80 bytes (R8, 10_state.md R27). -/
  fontData     : Vector Byte 80
  /-- `FX29_PRESENT` (R8). -/
  fx29Present  : Bool
  /-- `SPRITE_EDGE` (R8). -/
  spriteEdge   : SpriteEdge
  deriving DecidableEq, Repr

namespace Config

/-- The default glyphs, 0 to F, five rows each (10_state.md R27).
PRESUMED by the spec (general knowledge, D6): log 4. -/
def defaultGlyphs : List Byte :=
  [0xF0, 0x90, 0x90, 0x90, 0xF0] ++ [0x20, 0x60, 0x20, 0x20, 0x70] ++
  [0xF0, 0x10, 0xF0, 0x80, 0xF0] ++ [0xF0, 0x10, 0xF0, 0x10, 0xF0] ++
  [0x90, 0x90, 0xF0, 0x10, 0x10] ++ [0xF0, 0x80, 0xF0, 0x10, 0xF0] ++
  [0xF0, 0x80, 0xF0, 0x90, 0xF0] ++ [0xF0, 0x10, 0x20, 0x40, 0x40] ++
  [0xF0, 0x90, 0xF0, 0x90, 0xF0] ++ [0xF0, 0x90, 0xF0, 0x10, 0xF0] ++
  [0xF0, 0x90, 0xF0, 0x90, 0x90] ++ [0xE0, 0x90, 0xE0, 0x90, 0xE0] ++
  [0xF0, 0x80, 0x80, 0x80, 0xF0] ++ [0xE0, 0x90, 0x90, 0x90, 0xE0] ++
  [0xF0, 0x80, 0xF0, 0x80, 0xF0] ++ [0xF0, 0x80, 0xF0, 0x80, 0x80]

/-- The default `FONT_DATA` (R8). -/
def defaultFont : Vector Byte 80 := ⟨defaultGlyphs.toArray, by decide⟩

/-- The parameters of `State.reset`. `fontData`, `fx29Present` and `spriteEdge` are the spec's defaults (R8).
`quirk`, `keypadLayout`, `clockRate`: DESIGN CHOICE, the spec gives no default (log 2).
`fontBase`: PRESUMED 0x050, one of the two values the family uses (log 3). -/
def default : Config where
  quirk        := .legacy
  keypadLayout := .ordered
  clockRate    := 700
  fontBase     := 0x050
  fontData     := defaultFont
  fx29Present  := true
  spriteEdge   := .clip

/-- FREE VALUE: the random byte of the `n`-th CXNN (42_alu.md R99: "any byte 0..255, a fresh draw each execution").
Nothing constrains it (log 10). -/
opaque freeByte : Nat → Byte

end Config

end Sys2Proof
end

