-- ==== Sys2Proof/Machine/State.lean ====
section
/-! DEFINITION. The state of the core (10_state.md), the reasons a step can stop, and the state after reset. -/

namespace Sys2Proof.Machine

/-- The cause of a control-flow fault (60_exceptions.md R117, R118). -/
inductive FlowCause where
  /-- CALL with SP = 16. -/
  | stackOverflow
  /-- RET with SP = 0. -/
  | stackUnderflow
  deriving DecidableEq, Repr

/-- The output event of an unrecognized word (60_exceptions.md R121): its address and the word. -/
structure Diagnostic where
  addr : Word
  word : Word
  deriving DecidableEq, Repr

/-- One move of one agent (60_exceptions.md R134; the strobes and inputs of R138). -/
inductive Action where
  /-- The port `step`: one engine step (40_control_unit.md R70). -/
  | engineStep
  /-- The port `timer_tick`: one step of the timer driver (60_exceptions.md R129). -/
  | timerTick
  /-- The port `keys`: the host writes all 16 bits of KEYS (R133). -/
  | writeKeys (mask : Word)
  /-- The port `shutdown`: the host stops the core (R135). -/
  | shutdown
  deriving DecidableEq, Repr

/-- Why a step stops the machine. No instruction answers one of these: they say that no agent has a step to make. -/
inductive Fault where
  /-- Raised by the engine's step when FAULT = StackOverflow, holding FAULT_ADDR: the engine takes no further step
  (60_exceptions.md R119). Safe: the core does not step either. -/
  | stackOverflow (addr : Word)
  /-- The same for FAULT = StackUnderflow. Safe. -/
  | stackUnderflow (addr : Word)
  /-- Raised by the engine's step after shutdown (60_exceptions.md R135). Safe. -/
  | shutDown
  deriving DecidableEq, Repr

/-- Why something is given no meaning. -/
inductive Refusal where
  /-- Raised by an arm of `exec` with no meaning yet; no arm has none. Safe. -/
  | notModelled (mnemonic : String)
  /-- Raised by `construct` when there is no ROM (60_exceptions.md R122). Safe: no core exists. -/
  | romMissing
  /-- Raised by `construct` for a ROM longer than 3584 bytes, holding its length (R122). Safe. -/
  | romTooLong (length : Nat)
  deriving DecidableEq, Repr

/-- Everything the core holds. The first field is the construction parameters, written by nothing (10_state.md R29; log 1);
the last two are the model's own. -/
structure State where
  /-- The construction parameters. -/
  cfg       : Config
  /-- V0..VF (10_state.md R15); VF is the flag (R16). -/
  v         : Vector Byte 16
  /-- PC (R18, R19). -/
  pc        : Word
  /-- I (R20). -/
  i         : Word
  /-- DT, the delay timer (R21). -/
  dt        : Byte
  /-- ST, the sound timer (R22). -/
  st        : Byte
  /-- SP, the call-stack depth 0..16 (R23). -/
  sp        : Fin 17
  /-- STACK (R23, R24). -/
  stack     : Vector Word 16
  /-- MEM (R26), in the canonical form of `Memory.wf`. -/
  mem       : List Host.Cell
  /-- DISP (R25). -/
  disp      : Vector Row 32
  /-- KEYS (R28). -/
  keys      : Word
  /-- FAULT (R32, 60_exceptions.md R118). -/
  fault     : Option FlowCause
  /-- FAULT_ADDR (R118). -/
  faultAddr : Word
  /-- The core is running: true until shutdown (60_exceptions.md R135). -/
  running   : Bool
  /-- The diagnostics emitted, newest first (60_exceptions.md R121; log 11). -/
  diags     : List Diagnostic
  /-- The model's own: how many draws CXNN has taken (42_alu.md R99; log 10). -/
  draws     : Nat
  /-- The model's own: which agents move next, in order; when empty, the engine (60_exceptions.md R134; log 9). -/
  agenda    : List Action
  deriving DecidableEq, Repr

/-- The core right after construction (10_state.md R33, 70_reset_and_hazards.md R139) with an empty ROM: PC = 0x200, DT, ST
and SP 0, FAULT None, the font at FONT_BASE (what unlisted memory reads as: `Memory.initialByte`).
DESIGN CHOICE: V, I, STACK, DISP, KEYS and FAULT_ADDR, for which the spec says "any value", are 0 (log 6), the ROM is empty
(log 8), and the agenda and the draw counter start empty (log 9, log 10). -/
def State.reset : State where
  cfg       := Config.default
  v         := Vector.replicate 16 0
  pc        := 0x200
  i         := 0
  dt        := 0
  st        := 0
  sp        := 0
  stack     := Vector.replicate 16 0
  mem       := []
  disp      := Vector.replicate 32 0
  keys      := 0
  fault     := none
  faultAddr := 0
  running   := true
  diags     := []
  draws     := 0
  agenda    := []

end Sys2Proof.Machine
end

