-- ==== Sys2Proof/Machine/Flags.lean ====
section
/-! DEFINITION. The values VF takes as a flag (10_state.md R16, R31). Each is 1 or 0. -/

namespace Sys2Proof.Machine

/-- A condition as the byte written to VF. -/
def flagByte (c : Bool) : Byte := if c then 1 else 0

/-- 8XY4: carry out of bit 7 (42_alu.md R94). -/
def carryFlag (a b : Byte) : Byte := flagByte (a.toNat + b.toNat > 255)

/-- 8XY5 and 8XY7: 1 when `a - b` needs no borrow (R95, R97). -/
def noBorrowFlag (a b : Byte) : Byte := flagByte (a.toNat ≥ b.toNat)

/-- 8XY6: bit 0 of the value shifted (R96). -/
def shiftRightFlag (a : Byte) : Byte := a &&& 0x01

/-- 8XYE: bit 7 of the value shifted (R98). -/
def shiftLeftFlag (a : Byte) : Byte := (a >>> 7) &&& 0x01

/-- FX1E: the sum reaches 0x1000 or more (43_index_memory.md R102). -/
def indexOverflowFlag (i : Word) (b : Byte) : Byte := flagByte (i.toNat + b.toNat ≥ 0x1000)

end Sys2Proof.Machine
end

