-- ==== Sys2Proof/Machine/Memory.lean ====
section
/-! DEFINITION. The 4096 bytes of memory (20_memory.md) as a sorted list of cells. -/

namespace Sys2Proof.Machine.Memory

/-- `FONT_DATA[k]`, and 0 past the table (10_state.md R27). -/
def fontByte (cfg : Config) (k : Nat) : Byte := if h : k < 80 then cfg.fontData[k] else 0

/-- What an address no cell lists reads as: the font in its region (10_state.md R33), and 0x00 elsewhere.
DESIGN CHOICE for the 0x00: the spec says any value (log 7). -/
def initialByte (cfg : Config) (a : Nat) : Byte :=
  if cfg.fontBase.val ≤ a then fontByte cfg (a - cfg.fontBase.val) else 0

/-- The byte at address `a`. -/
def read (cfg : Config) : List Host.Cell → Nat → Byte
  | [], a     => initialByte cfg a
  | c :: m, a => if c.1 = a then c.2 else read cfg m a

/-- `m` with the cell `(a, b)` put before the first cell of a higher address. -/
def insert (a : Nat) (b : Byte) : List Host.Cell → List Host.Cell
  | []     => [(a, b)]
  | c :: m => if a < c.1 then (a, b) :: c :: m else c :: insert a b m

/-- `m` without any cell at `a`. -/
def erase (a : Nat) (m : List Host.Cell) : List Host.Cell := m.filter (fun c => c.1 != a)

/-- `m` with `b` at address `a`; a byte equal to what an unlisted address reads as is not listed. -/
def write (cfg : Config) (m : List Host.Cell) (a : Nat) (b : Byte) : List Host.Cell :=
  if b = initialByte cfg a then erase a m else insert a b (erase a m)

/-- The canonical form: addresses strictly rising, inside the space, and no cell that an unlisted address would read. -/
abbrev wf (cfg : Config) (m : List Host.Cell) : Prop :=
  m.Pairwise (fun c d => c.1 < d.1) ∧ ∀ c ∈ m, c.1 < 4096 ∧ c.2 ≠ initialByte cfg c.1

/-- Bytes written one after another from address `a` on (the loader of 70_reset_and_hazards.md R139). -/
def writeBytes (cfg : Config) (m : List Host.Cell) (a : Nat) : List Byte → List Host.Cell
  | []      => m
  | b :: bs => writeBytes cfg (write cfg m a b) (a + 1) bs

end Sys2Proof.Machine.Memory
end

