-- ==== Sys2Proof/Machine/Operands.lean ====
section
/-! DEFINITION. How operands are formed (30_encoding.md R56, R57): nothing is sign-extended, scaled or shifted. -/

namespace Sys2Proof.Machine

/-- `zext_16(NNN)` (R56). -/
def zextNNN (nnn : BitVec 12) : Word := nnn.setWidth 16

/-- An 8-bit register value as a 16-bit addend (R86, R102). -/
def zextByte (b : Byte) : Word := b.setWidth 16

/-- The register BNNN adds: V0 under `Legacy`, V[X] with X the top nibble of NNN under `Modern`
(41_control_flow.md R86). -/
def offsetReg (q : Quirk) (nnn : BitVec 12) : Reg :=
  match q with
  | .legacy => 0
  | .modern => (nnn.extractLsb' 8 4).toFin

/-- The register 8XY6 and 8XYE shift: V[Y] is copied to V[X] first under `Legacy`; `Modern` ignores Y
(42_alu.md R96, R98). -/
def shiftSource (q : Quirk) (x y : Reg) : Reg :=
  match q with
  | .legacy => y
  | .modern => x

/-- The memory cell an address names: every access reduces it mod 4096 (20_memory.md R38). -/
def memAddr (a : Word) : Nat := a.toNat % 4096

/-- The address `I + k`, formed mod 65536 (R38, 43_index_memory.md). -/
def indexed (i : Word) (k : Nat) : Word := i + BitVec.ofNat 16 k

/-- The registers of a block, V[0] to V[X] in order (R105, R106). -/
def blockRegs (x : Reg) : List Reg := (List.finRange 16).filter (fun k => k ≤ x)

/-- I after FX55 and FX65: `I + X + 1` under `Legacy`, unchanged under `Modern` (R105, R106). -/
def indexAfterBlock (q : Quirk) (i : Word) (x : Reg) : Word :=
  match q with
  | .legacy => i + BitVec.ofNat 16 (x.val + 1)
  | .modern => i

/-- The address of the glyph of a byte's low nibble: `FONT_BASE + 5 * (v & 0x0F)` (R103). -/
def glyphAddr (cfg : Config) (b : Byte) : Word :=
  BitVec.ofNat 16 (cfg.fontBase.val + 5 * (b &&& 0x0F).toNat)

/-- The three decimal digits of a byte: hundreds, tens, units (R104). -/
def bcdHundreds (b : Byte) : Byte := BitVec.ofNat 8 (b.toNat / 100)
def bcdTens (b : Byte) : Byte := BitVec.ofNat 8 (b.toNat / 10 % 10)
def bcdUnits (b : Byte) : Byte := BitVec.ofNat 8 (b.toNat % 10)

/-- `KeyBit(k)`: bit k of KEYS, and 0 for k of 16 or more (45_timers_input.md R116). -/
def keyBit (keys : Word) (k : Nat) : Bool := keys.getLsbD k

/-! ### Sprites (44_display.md R108, R109) -/

/-- `x0 = V[X] mod 64` and `y0 = V[Y] mod 32`: the anchor wraps under both settings. -/
def spriteX (b : Byte) : Nat := b.toNat % 64
def spriteY (b : Byte) : Nat := b.toNat % 32

/-- The pixel, column and row, that sprite column `c` of sprite row `r` falls on: none where `Clip` draws nothing
(R108), wrapped mod 64 and mod 32 under `Wrap` (R109). -/
def spritePixel (e : SpriteEdge) (x0 y0 r c : Nat) : Option (Fin 64 × Fin 32) :=
  match e with
  | .clip =>
    if h : x0 + c < 64 ∧ y0 + r < 32 then some (⟨x0 + c, h.1⟩, ⟨y0 + r, h.2⟩) else none
  | .wrap => some (Fin.ofNat 64 (x0 + c), Fin.ofNat 32 (y0 + r))

/-- The pixels one sprite byte toggles: columns 0..7, the most significant bit first. -/
def rowPixels (e : SpriteEdge) (x0 y0 r : Nat) (s : Byte) : List (Fin 64 × Fin 32) :=
  (List.range 8).filterMap (fun c => if s.getLsbD (7 - c) then spritePixel e x0 y0 r c else none)

end Sys2Proof.Machine
end

