-- ==== Sys2Proof/Machine/Ops.lean ====
section
/-! DEFINITION. The operations the meanings share: registers, memory, fetch, the call stack, the control-flow fault, the
diagnostic, the display and the random draw. -/

namespace Sys2Proof.Machine.State

/-! ### Registers -/

/-- `V[x]` (10_state.md R15). -/
def reg (s : State) (x : Reg) : Byte := s.v[x.val]

/-- `V[x] <- b`. -/
def setReg (s : State) (x : Reg) (b : Byte) : State := { s with v := s.v.set x.val b }

/-- `V[F] <- b`: a flag write is a write of the register VF (R16). -/
def setFlag (s : State) (b : Byte) : State := s.setReg vf b

/-- `PC <- a` (R19). -/
def setPc (s : State) (a : Word) : State := { s with pc := a }

/-- `I <- a` (R20). -/
def setI (s : State) (a : Word) : State := { s with i := a }

/-- The step's advance `PC <- PC + 2`, mod 65536 (40_control_unit.md R70). -/
def advancePc (s : State) : State := s.setPc (s.pc + 2)

/-- A skip: `PC <- PC + 2` when the condition holds (41_control_flow.md R87). -/
def skipIf (s : State) (c : Bool) : State := if c then s.setPc (s.pc + 2) else s

/-- `a`, the address of the instruction being executed: during execute PC is `a + 2` (10_state.md R18; log 14). -/
def instrAddr (s : State) : Word := s.pc - 2

/-! ### Memory -/

/-- `MemRead(a, 1)` (20_memory.md R38). -/
def memRead (s : State) (a : Word) : Byte := Memory.read s.cfg s.mem (memAddr a)

/-- `MemWrite(a, 1, b)` (R38). -/
def memWrite (s : State) (a : Word) (b : Byte) : State :=
  { s with mem := Memory.write s.cfg s.mem (memAddr a) b }

/-- `Fetch16(PC)`: two bytes, most significant first (R40). -/
def fetchWord (s : State) : Word := wordOfBytes (s.memRead s.pc) (s.memRead (s.pc + 1))

/-- The instruction the next engine step runs. -/
def fetchInstr (s : State) : Instr := decode s.fetchWord

/-- A word stored where the next step fetches, most significant byte first. -/
def placeWord (s : State) (w : Word) : State :=
  (s.memWrite s.pc (highByte w)).memWrite (s.pc + 1) (lowByte w)

/-- FX33's three stores (43_index_memory.md R104). -/
def storeBcd (s : State) (b : Byte) : State :=
  ((s.memWrite s.i (bcdHundreds b)).memWrite (indexed s.i 1) (bcdTens b)).memWrite (indexed s.i 2) (bcdUnits b)

/-- FX55's stores: `MEM[I + k] <- V[k]` for the registers listed, in order (R105). -/
def storeBlock (s : State) (rs : List Reg) : State :=
  rs.foldl (fun t k => t.memWrite (indexed t.i k.val) (t.reg k)) s

/-- FX65's loads: `V[k] <- MEM[I + k]` for the registers listed, in order (R106). -/
def loadBlock (s : State) (rs : List Reg) : State :=
  rs.foldl (fun t k => t.setReg k (t.memRead (indexed t.i k.val))) s

/-! ### The call stack (10_state.md R23) -/

/-- `Push(a)`. -/
def push (s : State) (a : Word) : Except FlowCause State :=
  if h : s.sp.val < 16 then
    .ok { s with stack := s.stack.set s.sp.val a, sp := ⟨s.sp.val + 1, Nat.succ_lt_succ h⟩ }
  else .error .stackOverflow

/-- `Pop()`: the entry popped and the state after. The entry stays in STACK, stale (R24). -/
def pop (s : State) : Except FlowCause (Word × State) :=
  if h : s.sp.val = 0 then .error .stackUnderflow
  else
    have below : s.sp.val - 1 < 16 := by omega
    .ok (s.stack[s.sp.val - 1], { s with sp := ⟨s.sp.val - 1, Nat.lt_of_lt_of_le below (by decide)⟩ })

/-! ### Abnormal events -/

/-- Taking the core's one exception (60_exceptions.md R119): `FAULT <- c`, `FAULT_ADDR <- a`, the rest of the
instruction abandoned; PC stays `a + 2`. There is no handler and no return (R120), so no operation beside it. -/
def raiseControlFlowFault (s : State) (c : FlowCause) : State :=
  { s with fault := some c, faultAddr := s.instrAddr }

/-- `emit Diagnostic(a, w)` (R121). -/
def emitDiagnostic (s : State) (w : Word) : State := { s with diags := ⟨s.instrAddr, w⟩ :: s.diags }

/-! ### The random draw -/

/-- The byte `Draw8()` gives (42_alu.md R99): the free value at this draw. -/
def drawnByte (s : State) : Byte := Config.freeByte s.draws

/-- A draw is fresh each execution: the counter moves on. -/
def countDraw (s : State) : State := { s with draws := s.draws + 1 }

/-! ### The display (10_state.md R25, 44_display.md) -/

/-- `P(x, y)`: bit `63 - x` of `DISP[y]`. -/
def pixel (s : State) (x : Fin 64) (y : Fin 32) : Bool := s.disp[y.val].getLsbD (63 - x.val)

/-- `P(x, y) <- P(x, y) ^ 1`. -/
def flipPixel (s : State) (x : Fin 64) (y : Fin 32) : State :=
  { s with disp := s.disp.set y.val (s.disp[y.val] ^^^ (1#64 <<< (63 - x.val))) }

/-- One sprite bit that is 1: VF becomes 1 if the pixel was lit, and the pixel flips (R108). -/
def blitPixel (s : State) (p : Fin 64 × Fin 32) : State :=
  (if s.pixel p.1 p.2 then s.setFlag 1 else s).flipPixel p.1 p.2

/-- One sprite row: the byte at `I + r`, its bits left to right. -/
def blitRow (x0 y0 : Nat) (s : State) (r : Nat) : State :=
  (rowPixels s.cfg.spriteEdge x0 y0 r (s.memRead (indexed s.i r))).foldl blitPixel s

/-- DXYN once the anchor is read: VF cleared, then rows 0 to n-1 (R108, R109). -/
def drawSprite (s : State) (x0 y0 n : Nat) : State :=
  (List.range n).foldl (blitRow x0 y0) (s.setFlag 0)

/-- 00E0: every row to 0 (R107). -/
def clearDisplay (s : State) : State := { s with disp := Vector.replicate 32 0 }

end Sys2Proof.Machine.State
end

