-- ==== Sys2Proof/Machine/Alu.lean ====
section
/-! DEFINITION. Register and arithmetic instructions (42_alu.md). Statements are performed in order, each reading what
the one before left (30_encoding.md R66), which decides the results when X or Y is 15 (log 16). -/

namespace Sys2Proof.Machine

/-- LD Vx, nn (R88). -/
def execLdImm (x : Reg) (nn : Byte) (s : State) : Host.Outcome State Fault Refusal := .next (s.setReg x nn)

/-- ADD Vx, nn (R89): no carry is written. -/
def execAddImm (x : Reg) (nn : Byte) (s : State) : Host.Outcome State Fault Refusal :=
  .next (s.setReg x (s.reg x + nn))

/-- LD Vx, Vy (R90). -/
def execLdReg (x y : Reg) (s : State) : Host.Outcome State Fault Refusal := .next (s.setReg x (s.reg y))

/-- OR Vx, Vy (R91): VF is not reset. -/
def execOrReg (x y : Reg) (s : State) : Host.Outcome State Fault Refusal :=
  .next (s.setReg x (s.reg x ||| s.reg y))

/-- AND Vx, Vy (R92): VF is not reset. -/
def execAndReg (x y : Reg) (s : State) : Host.Outcome State Fault Refusal :=
  .next (s.setReg x (s.reg x &&& s.reg y))

/-- XOR Vx, Vy (R93): VF is not reset. -/
def execXorReg (x y : Reg) (s : State) : Host.Outcome State Fault Refusal :=
  .next (s.setReg x (s.reg x ^^^ s.reg y))

/-- ADD Vx, Vy (R94): the sum first, the carry last. -/
def execAddReg (x y : Reg) (s : State) : Host.Outcome State Fault Refusal :=
  .next ((s.setReg x (s.reg x + s.reg y)).setFlag (carryFlag (s.reg x) (s.reg y)))

/-- SUB Vx, Vy (R95): the flag first, then the difference of the registers as the flag write left them. -/
def execSubReg (x y : Reg) (s : State) : Host.Outcome State Fault Refusal :=
  let t := s.setFlag (noBorrowFlag (s.reg x) (s.reg y))
  .next (t.setReg x (t.reg x - t.reg y))

/-- SHR Vx, Vy (R96): the copy under `Legacy`, then the flag, then the shift. -/
def execShr (x y : Reg) (s : State) : Host.Outcome State Fault Refusal :=
  let t := s.setReg x (s.reg (shiftSource s.cfg.quirk x y))
  let u := t.setFlag (shiftRightFlag (t.reg x))
  .next (u.setReg x (u.reg x >>> 1))

/-- SUBN Vx, Vy (R97): as `execSubReg` with the operands the other way round. -/
def execSubn (x y : Reg) (s : State) : Host.Outcome State Fault Refusal :=
  let t := s.setFlag (noBorrowFlag (s.reg y) (s.reg x))
  .next (t.setReg x (t.reg y - t.reg x))

/-- SHL Vx, Vy (R98): the copy under `Legacy`, then the flag, then the shift. -/
def execShl (x y : Reg) (s : State) : Host.Outcome State Fault Refusal :=
  let t := s.setReg x (s.reg (shiftSource s.cfg.quirk x y))
  let u := t.setFlag (shiftLeftFlag (t.reg x))
  .next (u.setReg x (u.reg x <<< 1))

/-- RND Vx, nn (R99): the draw is a free value (log 10). -/
def execRnd (x : Reg) (nn : Byte) (s : State) : Host.Outcome State Fault Refusal :=
  .next (s.countDraw.setReg x (s.drawnByte &&& nn))

end Sys2Proof.Machine
end

