-- ==== Sys2Proof/Machine/Control.lean ====
section
/-! DEFINITION. NOP and the unrecognized words (40_control_unit.md). Every meaning here and in the other families runs
after the step's `PC <- a + 2` (R70). -/

namespace Sys2Proof.Machine

/-- NOP (R74): nothing. -/
def execNop (s : State) : Host.Outcome State Fault Refusal := .next s

/-- An unrecognized word (R75): a diagnostic, no other change. -/
def execUnrecognized (w : Word) (s : State) : Host.Outcome State Fault Refusal := .next (s.emitDiagnostic w)

end Sys2Proof.Machine
end

