-- ==== Sys2Proof/Machine/Display.lean ====
section
/-! DEFINITION. Display instructions (44_display.md). -/

namespace Sys2Proof.Machine

/-- CLS (R107): X is ignored; VF is not written. -/
def execCls (_x : Reg) (s : State) : Host.Outcome State Fault Refusal := .next s.clearDisplay

/-- DRW Vx, Vy, n (R108, R109): the anchor is read before VF is cleared. -/
def execDrw (x y : Reg) (n : BitVec 4) (s : State) : Host.Outcome State Fault Refusal :=
  .next (s.drawSprite (spriteX (s.reg x)) (spriteY (s.reg y)) n.toNat)

end Sys2Proof.Machine
end

