-- ==== Sys2Proof/Machine/IndexMemory.lean ====
section
/-! DEFINITION. Index register and memory instructions (43_index_memory.md). No access faults. -/

namespace Sys2Proof.Machine

/-- LD I, nnn (R101). -/
def execLdI (nnn : BitVec 12) (s : State) : Host.Outcome State Fault Refusal := .next (s.setI (zextNNN nnn))

/-- ADD I, Vx (R102): the sum reads VF before the flag is written. -/
def execAddI (x : Reg) (s : State) : Host.Outcome State Fault Refusal :=
  .next ((s.setFlag (indexOverflowFlag s.i (s.reg x))).setI (s.i + zextByte (s.reg x)))

/-- LD F, Vx (R103): without `FX29_PRESENT` the word is an unrecognized one (40_control_unit.md R75). -/
def execLdF (x : Reg) (s : State) : Host.Outcome State Fault Refusal :=
  if s.cfg.fx29Present then .next (s.setI (glyphAddr s.cfg (s.reg x)))
  else .next (s.emitDiagnostic (encode (.ldF x)))

/-- LD B, Vx (R104). -/
def execLdB (x : Reg) (s : State) : Host.Outcome State Fault Refusal := .next (s.storeBcd (s.reg x))

/-- LD [I], Vx (R105). -/
def execStoreRegs (x : Reg) (s : State) : Host.Outcome State Fault Refusal :=
  .next ((s.storeBlock (blockRegs x)).setI (indexAfterBlock s.cfg.quirk s.i x))

/-- LD Vx, [I] (R106). -/
def execLoadRegs (x : Reg) (s : State) : Host.Outcome State Fault Refusal :=
  .next ((s.loadBlock (blockRegs x)).setI (indexAfterBlock s.cfg.quirk s.i x))

end Sys2Proof.Machine
end

