-- ==== Sys2Proof/Machine/TimersInput.lean ====
section
/-! DEFINITION. Timer and input instructions (45_timers_input.md). -/

namespace Sys2Proof.Machine

/-- LD Vx, DT (R110). -/
def execLdVxDT (x : Reg) (s : State) : Host.Outcome State Fault Refusal := .next (s.setReg x s.dt)

/-- LD DT, Vx (R111). -/
def execLdDT (x : Reg) (s : State) : Host.Outcome State Fault Refusal := .next { s with dt := s.reg x }

/-- LD ST, Vx (R112). -/
def execLdST (x : Reg) (s : State) : Host.Outcome State Fault Refusal := .next { s with st := s.reg x }

/-- SKP Vx (R113): the key index is the register's value. -/
def execSkp (x : Reg) (s : State) : Host.Outcome State Fault Refusal :=
  .next (s.skipIf (keyBit s.keys (s.reg x).toNat))

/-- SKNP Vx (R114). -/
def execSknp (x : Reg) (s : State) : Host.Outcome State Fault Refusal :=
  .next (s.skipIf (!keyBit s.keys (s.reg x).toNat))

/-- WKEY x (R115): while key X, the field itself, is not held, PC goes back to the instruction; no register is written. -/
def execWkey (x : Reg) (s : State) : Host.Outcome State Fault Refusal :=
  .next (if keyBit s.keys x.val then s else s.setPc (s.pc - 2))

end Sys2Proof.Machine
end

