-- ==== Sys2Proof/Machine/Agents.lean ====
section
/-! DEFINITION. The steps of the three agents (60_exceptions.md R134). -/

namespace Sys2Proof.Machine

/-- The engine has a step: the core is running and FAULT = None (40_control_unit.md R70, R72). -/
def State.engineReady (s : State) : Bool := s.running && s.fault.isNone

/-- One engine step (R70): decode the word at PC, advance PC by 2, execute. With FAULT set or after shutdown there is no
step (60_exceptions.md R119, R135); the outcome then is a fault that says which (log 12, log 13). -/
def engineStep (s : State) : Host.Outcome State Fault Refusal :=
  if s.running then
    match s.fault with
    | none                 => exec s.fetchInstr s.advancePc
    | some .stackOverflow  => .fault (.stackOverflow s.faultAddr)
    | some .stackUnderflow => .fault (.stackUnderflow s.faultAddr)
  else .fault .shutDown

/-- One timer count: down by 1, floor at 0 (60_exceptions.md R129). -/
def countDown (b : Byte) : Byte := if b = 0 then 0 else b - 1

/-- One timer tick (R129). It runs also while the engine is faulted, and not after shutdown (R135). -/
def timerTick (s : State) : State :=
  if s.running then { s with dt := countDown s.dt, st := countDown s.st } else s

/-- The host's write of KEYS (R133). -/
def writeKeys (s : State) (mask : Word) : State := { s with keys := mask }

/-- The host's shutdown (R135). -/
def shutDown (s : State) : State := { s with running := false }

/-- One move of one agent. A `step` strobe at an engine that has no step changes nothing (95_test_vectors.md X-1). -/
def act (a : Action) (s : State) : Host.Outcome State Fault Refusal :=
  match a with
  | .engineStep  => if s.engineReady then engineStep s else .next s
  | .timerTick   => .next (timerTick s)
  | .writeKeys m => .next (writeKeys s m)
  | .shutdown    => .next (shutDown s)

/-- The next move: the first on the agenda; with nothing on it, the engine's (log 9). -/
def nextMove (s : State) : Host.Outcome State Fault Refusal :=
  match s.agenda with
  | []        => engineStep s
  | a :: rest => act a { s with agenda := rest }

/-- What `State.withFetchWord` does: the word's 16 bits at PC, and the engine free to step (running, FAULT None, nothing
on the agenda before it). -/
def State.readyToFetch (s : State) (w : Word) : State :=
  { s.placeWord w with running := true, fault := none, agenda := [] }

end Sys2Proof.Machine
end

