-- ==== Sys2Proof/Machine/Step.lean ====
section
/-! DEFINITION. One step of the machine. -/

namespace Sys2Proof.Machine

/-- One step of the machine: one atomic move of one agent (60_exceptions.md R134). -/
def step (s : State) : Host.Outcome State Fault Refusal := nextMove s

/-- `s` with an instruction (its bits numbered as spec/opcode_table.json numbers them) where `step` fetches next, and the
engine free to fetch it. It stands for a ROM loaded at construction (log 8). -/
def State.withFetchWord (s : State) (nbits w : Nat) : State := s.readyToFetch (BitVec.ofNat 16 (w % 2 ^ nbits))

end Sys2Proof.Machine
end

