-- ==== Sys2Proof/Assembler.lean ====
section
/-! DEFINITION. The assembler spelling of an instruction and the word it assembles to (30_encoding.md R67, R68). No step
reads this file. -/

namespace Sys2Proof

/-- An operand as it is written. -/
inductive AsmOperand where
  /-- `Vx`. -/
  | reg (x : Reg)
  /-- `x` of WKEY: a key index. -/
  | key (x : Reg)
  /-- `nn`. -/
  | byte (nn : Byte)
  /-- `nnn`. -/
  | addr (nnn : BitVec 12)
  /-- `n`. -/
  | nibble (n : BitVec 4)
  /-- `hhhh` of `.word`. -/
  | word (w : Word)
  /-- `I`. -/
  | index
  /-- `[I]`. -/
  | atIndex
  /-- `DT`. -/
  | delayTimer
  /-- `ST`. -/
  | soundTimer
  /-- `F`. -/
  | font
  /-- `B`. -/
  | bcd
  deriving DecidableEq, Repr

/-- A line of assembler text: the mnemonic and its operands in order. -/
structure AsmLine where
  mnemonic : String
  operands : List AsmOperand
  deriving DecidableEq, Repr

/-- The spelling of an instruction (R67). BNNN is spelled with V0 under both values of QUIRK; an unrecognized word is
`.word`. -/
def Instr.assembly : Instr → AsmLine
  | .nop            => ⟨"NOP", []⟩
  | .cls _          => ⟨"CLS", []⟩
  | .ret _          => ⟨"RET", []⟩
  | .jp nnn         => ⟨"JP", [.addr nnn]⟩
  | .call nnn       => ⟨"CALL", [.addr nnn]⟩
  | .seImm x nn     => ⟨"SE", [.reg x, .byte nn]⟩
  | .sneImm x nn    => ⟨"SNE", [.reg x, .byte nn]⟩
  | .seReg x y _    => ⟨"SE", [.reg x, .reg y]⟩
  | .ldImm x nn     => ⟨"LD", [.reg x, .byte nn]⟩
  | .addImm x nn    => ⟨"ADD", [.reg x, .byte nn]⟩
  | .ldReg x y      => ⟨"LD", [.reg x, .reg y]⟩
  | .orReg x y      => ⟨"OR", [.reg x, .reg y]⟩
  | .andReg x y     => ⟨"AND", [.reg x, .reg y]⟩
  | .xorReg x y     => ⟨"XOR", [.reg x, .reg y]⟩
  | .addReg x y     => ⟨"ADD", [.reg x, .reg y]⟩
  | .subReg x y     => ⟨"SUB", [.reg x, .reg y]⟩
  | .shr x y        => ⟨"SHR", [.reg x, .reg y]⟩
  | .subn x y       => ⟨"SUBN", [.reg x, .reg y]⟩
  | .shl x y        => ⟨"SHL", [.reg x, .reg y]⟩
  | .sneReg x y _   => ⟨"SNE", [.reg x, .reg y]⟩
  | .ldI nnn        => ⟨"LD", [.index, .addr nnn]⟩
  | .jpV0 nnn       => ⟨"JP", [.reg 0, .addr nnn]⟩
  | .rnd x nn       => ⟨"RND", [.reg x, .byte nn]⟩
  | .drw x y n      => ⟨"DRW", [.reg x, .reg y, .nibble n]⟩
  | .skp x          => ⟨"SKP", [.reg x]⟩
  | .sknp x         => ⟨"SKNP", [.reg x]⟩
  | .ldVxDT x       => ⟨"LD", [.reg x, .delayTimer]⟩
  | .wkey x         => ⟨"WKEY", [.key x]⟩
  | .ldDT x         => ⟨"LD", [.delayTimer, .reg x]⟩
  | .ldST x         => ⟨"LD", [.soundTimer, .reg x]⟩
  | .addI x         => ⟨"ADD", [.index, .reg x]⟩
  | .ldF x          => ⟨"LD", [.font, .reg x]⟩
  | .ldB x          => ⟨"LD", [.bcd, .reg x]⟩
  | .storeRegs x    => ⟨"LD", [.atIndex, .reg x]⟩
  | .loadRegs x     => ⟨"LD", [.reg x, .atIndex]⟩
  | .unrecognized w => ⟨".word", [.word w]⟩

/-- The instruction with the bits no one reads at 0: X of 0XE0 and 0XEE, N of 5XYN and 9XYN (R60, R61). -/
def Instr.withIgnoredBitsZero : Instr → Instr
  | .cls _        => .cls 0
  | .ret _        => .ret 0
  | .seReg x y _  => .seReg x y 0
  | .sneReg x y _ => .sneReg x y 0
  | i             => i

/-- The word the assembler emits for an instruction's spelling, with ignored bits 0 (R67). -/
def Instr.assembledWord (i : Instr) : Word := encode i.withIgnoredBitsZero

end Sys2Proof
end

