-- ==== Sys2Proof/Machine/Construct.lean ====
section
/-! DEFINITION. Construction, the core's only reset (70_reset_and_hazards.md R139). -/

namespace Sys2Proof.Machine

/-- What the spec calls "any value, a parameter of the launch" (10_state.md R33, D14), and the order in which the agents
will move (60_exceptions.md R134, 70_reset_and_hazards.md R150). -/
structure Launch where
  v         : Vector Byte 16
  i         : Word
  stack     : Vector Word 16
  disp      : Vector Row 32
  keys      : Word
  faultAddr : Word
  /-- The bytes memory holds when it is allocated, by address mod 4096; the font and the ROM are then written over them. -/
  mem       : List Host.Cell
  draws     : Nat
  agenda    : List Action
  deriving DecidableEq, Repr

/-- The launch of `State.reset`: zeros (log 6, log 7), nothing on the agenda (log 9). -/
def Launch.zero : Launch where
  v := Vector.replicate 16 0
  i := 0
  stack := Vector.replicate 16 0
  disp := Vector.replicate 32 0
  keys := 0
  faultAddr := 0
  mem := []
  draws := 0
  agenda := []

/-- R139 step 2: memory with the launch's bytes. -/
def allocate (cfg : Config) (cells : List Host.Cell) : List Host.Cell :=
  cells.foldl (fun m c => Memory.write cfg m (c.1 % 4096) c.2) []

/-- R139 steps 2 to 4: allocate, load the font at FONT_BASE (R142), copy the ROM to 0x200 (R141). -/
def initialMemory (cfg : Config) (cells : List Host.Cell) (rom : List Byte) : List Host.Cell :=
  Memory.writeBytes cfg (Memory.writeBytes cfg (allocate cfg cells) cfg.fontBase.val cfg.fontData.toList) 0x200 rom

/-- Construction (R139). A missing ROM (`none`: missing or unreadable) or one over 3584 bytes is refused and no core exists
(60_exceptions.md R122; log 18). -/
def construct (cfg : Config) (l : Launch) (rom : Option (List Byte)) : Host.Outcome State Fault Refusal :=
  match rom with
  | none       => .refused .romMissing
  | some bytes =>
    if 3584 < bytes.length then .refused (.romTooLong bytes.length)
    else
      .next
        { cfg := cfg, v := l.v, pc := 0x200, i := l.i, dt := 0, st := 0, sp := 0, stack := l.stack
          mem := initialMemory cfg l.mem bytes, disp := l.disp, keys := l.keys, fault := none
          faultAddr := l.faultAddr, running := true, diags := [], draws := l.draws, agenda := l.agenda }

end Sys2Proof.Machine
end

