-- ==== Sys2Proof/Machine/Ports.lean ====
section
/-! DEFINITION. The output ports (60_exceptions.md R138), each a function of the state. -/

namespace Sys2Proof.Machine.State

/-- `sound_on`: ST > 0 (R131). -/
def soundOn (s : State) : Bool := 0 < s.st.toNat

/-- `framebuffer`: a snapshot of DISP (R132). -/
def framebuffer (s : State) : Vector Row 32 := s.disp

/-- `fault`: the code of FAULT (R117, R118). -/
def faultCode (s : State) : BitVec 2 :=
  match s.fault with
  | none                 => 0
  | some .stackOverflow  => 1
  | some .stackUnderflow => 2

/-- `fault_addr` (R118). -/
def faultAddress (s : State) : Word := s.faultAddr

/-- `diag_addr` and `diag_word` of the newest diagnostic, if any was emitted (R121). -/
def lastDiagnostic (s : State) : Option Diagnostic := s.diags.head?

/-- `awaiting_key` and `awaiting_key_index`: the engine is at a `FX0A` word whose key is not held
(40_control_unit.md R78). -/
def awaitingKey (s : State) : Option Reg :=
  match s.fault with
  | some _ => none
  | none   =>
    match s.fetchInstr with
    | .wkey k => if keyBit s.keys k.val then none else some k
    | _       => none

end Sys2Proof.Machine.State
end

