-- ==== Sys2Proof/WellFormed.lean ====
section
/-! DEFINITION. Which terms of `Instr` are instructions of the core. Every operand is bounded by its type; the one check
left is that `unrecognized` holds a word of 30_encoding.md R62. -/

namespace Sys2Proof

/-- The words no row of the opcode map but the last claims: R62, family by family. FX29 is not among them: it has a row
of its own, whose meaning looks at `FX29_PRESENT` (43_index_memory.md R103; log 5). -/
def isUnrecognizedWord (w : Word) : Bool :=
  let family := w.extractLsb' 12 4
  let nn     := w.extractLsb' 0 8
  let n      := w.extractLsb' 0 4
  (family == 0x0 && !(w == 0x0000) && !(nn == 0xE0) && !(nn == 0xEE)) ||
  (family == 0x8 && [0x8, 0x9, 0xA, 0xB, 0xC, 0xD, 0xF].contains n) ||
  (family == 0xE && !([0x9E, 0xA1].contains nn)) ||
  (family == 0xF && !([0x07, 0x0A, 0x15, 0x18, 0x1E, 0x29, 0x33, 0x55, 0x65].contains nn))

/-- A well-formed instruction. -/
def Instr.wellFormed : Instr → Bool
  | .nop | .cls _ | .ret _ | .jp _ | .call _ => true
  | .seImm _ _ | .sneImm _ _ | .seReg _ _ _ | .ldImm _ _ | .addImm _ _ => true
  | .ldReg _ _ | .orReg _ _ | .andReg _ _ | .xorReg _ _ | .addReg _ _ | .subReg _ _ => true
  | .shr _ _ | .subn _ _ | .shl _ _ | .sneReg _ _ _ => true
  | .ldI _ | .jpV0 _ | .rnd _ _ | .drw _ _ _ | .skp _ | .sknp _ => true
  | .ldVxDT _ | .wkey _ | .ldDT _ | .ldST _ | .addI _ | .ldF _ | .ldB _ => true
  | .storeRegs _ | .loadRegs _ => true
  | .unrecognized w => isUnrecognizedWord w

end Sys2Proof
end

