-- ==== Sys2Proof/Safety.lean ====
section
/-! DEFINITION. The terms claims are stated in: what a move leaves alone, what an instruction may read, when the engine
moves, how a run ends (40_control_unit.md R77) and the invariant of the machine. -/

namespace Sys2Proof.Machine

/-- The parts of the state, V and MEM apart, that an instruction can write. -/
inductive Part where
  | pc | i | dt | st
  /-- SP and STACK. -/
  | stack
  | disp
  /-- FAULT and FAULT_ADDR. -/
  | fault
  | diags
  /-- The model's draw counter. -/
  | draws
  deriving DecidableEq, Repr

/-- From `s` to `t` everything is unchanged but the parts, registers and memory cells listed. The construction parameters,
KEYS, the running bit and the agenda are unchanged always. -/
structure SameBut (s t : State) (parts : List Part) (regs : List Reg) (cells : List Nat) : Prop where
  cfg     : t.cfg = s.cfg
  keys    : t.keys = s.keys
  running : t.running = s.running
  agenda  : t.agenda = s.agenda
  reg     : ∀ r, r ∉ regs → t.reg r = s.reg r
  mem     : ∀ a : Word, memAddr a ∉ cells → t.memRead a = s.memRead a
  pc      : Part.pc ∉ parts → t.pc = s.pc
  i       : Part.i ∉ parts → t.i = s.i
  dt      : Part.dt ∉ parts → t.dt = s.dt
  st      : Part.st ∉ parts → t.st = s.st
  stack   : Part.stack ∉ parts → t.sp = s.sp ∧ t.stack = s.stack
  disp    : Part.disp ∉ parts → t.disp = s.disp
  fault   : Part.fault ∉ parts → t.fault = s.fault ∧ t.faultAddr = s.faultAddr
  diags   : Part.diags ∉ parts → t.diags = s.diags
  draws   : Part.draws ∉ parts → t.draws = s.draws

/-- The cells FX33 stores to (43_index_memory.md R104). -/
def bcdCells (s : State) : List Nat := [memAddr s.i, memAddr (indexed s.i 1), memAddr (indexed s.i 2)]

/-- The cells FX55 stores to (R105). -/
def blockCells (s : State) (x : Reg) : List Nat := (blockRegs x).map (fun k => memAddr (indexed s.i k.val))

/-- The words with the given match and mask (spec/opcode_table.json) decode to the given instruction. -/
def DecodesAs (mask pattern : Word) (instr : Word → Instr) : Prop :=
  ∀ w : Word, w &&& mask = pattern → decode w = instr w

/-- The outcome with a next state rewritten by `f`. -/
def mapNext (f : State → State) : Host.Outcome State Fault Refusal → Host.Outcome State Fault Refusal
  | .next s    => .next (f s)
  | .fault r   => .fault r
  | .refused r => .refused r

/-- The same machine with other contents of one part. -/
def State.withKeys (k : Word) (s : State) : State := { s with keys := k }
def State.withSound (b : Byte) (s : State) : State := { s with st := b }
def State.withQuirk (q : Quirk) (s : State) : State := { s with cfg := { s.cfg with quirk := q } }
def State.withEdge (e : SpriteEdge) (s : State) : State := { s with cfg := { s.cfg with spriteEdge := e } }
def State.withFx29 (b : Bool) (s : State) : State := { s with cfg := { s.cfg with fx29Present := b } }
def State.withLayoutAndRate (l : KeypadLayout) (r : Nat) (s : State) : State :=
  { s with cfg := { s.cfg with keypadLayout := l, clockRate := r } }

/-- The instructions that read KEYS (40_control_unit.md R76). -/
def readsKeys : Instr → Bool
  | .skp _ | .sknp _ | .wkey _ => true
  | _ => false

/-- The instructions whose behaviour QUIRK selects (00_scope.md R4). -/
def readsQuirk : Instr → Bool
  | .shr _ _ | .shl _ _ | .jpV0 _ | .storeRegs _ | .loadRegs _ => true
  | _ => false

/-- The registers an instruction may write (10_state.md R17). -/
def registersWritten : Instr → List Reg
  | .ldImm x _ | .addImm x _ | .ldReg x _ | .orReg x _ | .andReg x _ | .xorReg x _ | .rnd x _ | .ldVxDT x => [x]
  | .addReg x _ | .subReg x _ | .shr x _ | .subn x _ | .shl x _ => [x, vf]
  | .loadRegs x => blockRegs x
  | .addI _ | .drw _ _ _ => [vf]
  | .nop | .cls _ | .ret _ | .jp _ | .call _ | .seImm _ _ | .sneImm _ _ | .seReg _ _ _ | .sneReg _ _ _ => []
  | .ldI _ | .jpV0 _ | .skp _ | .sknp _ | .wkey _ | .ldDT _ | .ldST _ | .ldF _ | .ldB _ | .storeRegs _ => []
  | .unrecognized _ => []

/-- The memory cells an instruction may write (R26). -/
def cellsWritten (s : State) : Instr → List Nat
  | .ldB _ => bcdCells s
  | .storeRegs x => blockCells s x
  | _ => []

/-- The other parts an instruction may write: PC (R19), I (R20), DT (R21), ST (R22), the stack (R24), DISP (R25), the fault
status (60_exceptions.md R117), the diagnostics (R121), the draw counter (42_alu.md R99). -/
def partsWritten : Instr → List Part
  | .ret _ | .call _ => [.pc, .stack, .fault]
  | .jp _ | .jpV0 _ | .seImm _ _ | .sneImm _ _ | .seReg _ _ _ | .sneReg _ _ _ | .skp _ | .sknp _ | .wkey _ => [.pc]
  | .ldI _ | .addI _ | .storeRegs _ | .loadRegs _ => [.i]
  | .ldF _ => [.i, .diags]
  | .ldDT _ => [.dt]
  | .ldST _ => [.st]
  | .cls _ | .drw _ _ _ => [.disp]
  | .unrecognized _ => [.diags]
  | .rnd _ _ => [.draws]
  | .nop | .ldImm _ _ | .addImm _ _ | .ldReg _ _ | .orReg _ _ | .andReg _ _ | .xorReg _ _ | .addReg _ _ => []
  | .subReg _ _ | .shr _ _ | .subn _ _ | .shl _ _ | .ldVxDT _ | .ldB _ => []

/-- The engine moves next and has a step: running, FAULT None, nothing on the agenda before it. -/
def EngineMoves (s : State) : Prop := s.running = true ∧ s.fault = none ∧ s.agenda = []

/-! ### How a run ends (40_control_unit.md R77) -/

/-- The only successful end: the word at PC is a jump to PC itself. -/
def AtSelfJump (s : State) : Prop :=
  s.fault = none ∧ ∃ nnn : BitVec 12, s.fetchWord = BitVec.ofNat 16 (0x1000 + nnn.toNat) ∧ s.pc.toNat = nnn.toNat

/-- Never a successful end. -/
def Faulted (s : State) : Prop := s.fault ≠ none

/-- The host stopped the core. -/
def ShutDown (s : State) : Prop := s.running = false

/-- A safe run's states: not faulted. -/
def Safe (s : State) : Prop := ¬ Faulted s

/-! ### The invariant -/

/-- What every move of every agent keeps: memory in canonical form, and a fault status that tells the truth
(60_exceptions.md R117, R119): after an overflow SP is 16, after an underflow 0, and PC is FAULT_ADDR + 2. -/
structure Inv (s : State) : Prop where
  memory    : Memory.wf s.cfg s.mem
  overflow  : s.fault = some .stackOverflow → s.sp.val = 16 ∧ s.pc = s.faultAddr + 2
  underflow : s.fault = some .stackUnderflow → s.sp.val = 0 ∧ s.pc = s.faultAddr + 2

end Sys2Proof.Machine
end

