-- ==== Sys2Proof/Certificates/Slice0/Obligations.lean ====
section
/-! DEFINITION. The statements for the provers. Each docstring names the rule of spec/ it formalises. In every statement
about `exec` the state is the one after the step's `PC <- a + 2` (40_control_unit.md R70), so `s.pc - 2` is the
instruction's address. -/

open Sys2Proof Sys2Proof.Machine

/-! ### Encoding (30_encoding.md) -/

/-- R69: the fields of a word put together give the word, NN is Y and N, and NNN is X and NN. -/
def Obligations.FieldsRecoverTheWord : Prop :=
  ∀ w : Word,
    ((familyOf w).setWidth 16 <<< 12) ||| (BitVec.ofNat 16 (fieldX w).val <<< 8) |||
      (BitVec.ofNat 16 (fieldY w).val <<< 4) ||| (fieldN w).setWidth 16 = w ∧
    fieldNN w = (BitVec.ofNat 8 (fieldY w).val <<< 4) ||| (fieldN w).setWidth 8 ∧
    fieldNNN w = (BitVec.ofNat 12 (fieldX w).val <<< 8) ||| (fieldNN w).setWidth 12

/-- R59, R69: decoding the word of a well-formed instruction gives the instruction back, with every operand and every
ignored bit. -/
def Obligations.DecodeInvertsEncode : Prop :=
  ∀ i : Instr, i.wellFormed = true →
    decode (encode i) = i ∧ ∀ rest, decodeBytes (encodeBytes i ++ rest) = .ok (i, rest)

/-- R53, R55, R59: every word decodes to a well-formed instruction, whose word it is; a list of fewer than two bytes is
rejected by name. -/
def Obligations.EncodeInvertsDecode : Prop :=
  (∀ w : Word, encode (decode w) = w ∧ (decode w).wellFormed = true) ∧
  (∀ bs : List Byte, decodeBytes bs = .error .truncated ↔ bs.length < 2)

/-- R62: the unrecognized words, family by family, for FX29_PRESENT = true: FX29 has a row of its own, whose meaning looks
(the model's choice, log 5). -/
def Obligations.UnrecognizedWordsAreTheListed : Prop :=
  ∀ w : Word, decode w = .unrecognized w ↔
    (w.toNat / 4096 = 0x0 ∧ w.toNat ≠ 0 ∧ w.toNat % 256 ≠ 0xE0 ∧ w.toNat % 256 ≠ 0xEE) ∨
    (w.toNat / 4096 = 0x8 ∧ w.toNat % 16 ∈ [0x8, 0x9, 0xA, 0xB, 0xC, 0xD, 0xF]) ∨
    (w.toNat / 4096 = 0xE ∧ w.toNat % 256 ∉ [0x9E, 0xA1]) ∨
    (w.toNat / 4096 = 0xF ∧ w.toNat % 256 ∉ [0x07, 0x0A, 0x15, 0x18, 0x1E, 0x29, 0x33, 0x55, 0x65])

/-- R59, 95_test_vectors.md E-1 to E-16: words written out from the patterns decode to the instructions they stand for. -/
def Obligations.SampleWordsDecode : Prop :=
  decode 0xD4A7 = .drw 4 0xA 7 ∧ decode 0x0000 = .nop ∧ decode 0x05E0 = .cls 5 ∧ decode 0x00EE = .ret 0 ∧
  decode 0x0100 = .unrecognized 0x0100 ∧ decode 0x5121 = .seReg 1 2 1 ∧ decode 0x9AB3 = .sneReg 0xA 0xB 3 ∧
  decode 0x8AB9 = .unrecognized 0x8AB9 ∧ decode 0x8ABE = .shl 0xA 0xB ∧ decode 0xE19E = .skp 1 ∧
  decode 0xF129 = .ldF 1 ∧ decode 0x1234 = .jp 0x234 ∧ decode 0xA300 = .ldI 0x300 ∧ decode 0xF50A = .wkey 5 ∧
  decodeBytes [0x12, 0x34, 0x60] = .ok (.jp 0x234, [0x60])

/-- R60, R61, R67: an ignored bit changes nothing: an instruction and the one of its assembled word, whose ignored bits are
0, do the same in every state, and have the same spelling exactly if they differ in ignored bits alone. -/
def Obligations.IgnoredBitsChangeNothing : Prop :=
  (∀ (i : Instr) (s : State), i.wellFormed = true → exec (decode i.assembledWord) s = exec i s) ∧
  (∀ i j : Instr, i.wellFormed = true → j.wellFormed = true →
    (i.assembly = j.assembly ↔ i.assembledWord = j.assembledWord))

/-! ### The step (40_control_unit.md, 60_exceptions.md) -/

/-- R70 (with 20_memory.md R38, R40): when the two bytes at PC and PC + 1, addresses mod 4096, the more significant first,
decode to `i` and the engine moves, the step is `i` executed with PC two further; a `step` strobe on the agenda does the
same. With FAULT set the engine takes no step. -/
def Obligations.StepRunsDecodedInstruction : Prop :=
  (∀ (s : State) (i : Instr), EngineMoves s →
    decodeBytes [Memory.read s.cfg s.mem (s.pc.toNat % 4096), Memory.read s.cfg s.mem ((s.pc + 1).toNat % 4096)]
      = .ok (i, []) →
    step s = exec i { s with pc := s.pc + 2 }) ∧
  (∀ (s : State) (rest : List Action), s.running = true → s.fault = none → s.agenda = .engineStep :: rest →
    step s = exec s.fetchInstr { s with pc := s.pc + 2, agenda := rest }) ∧
  (∀ s : State, s.fault ≠ none → s.agenda = [] → ∀ t, step s ≠ .next t)

/-- R73, R117, R123: whatever the instruction and the state, execution answers a next state, never a fault or a refusal.
The two control-flow faults (CALL with SP = 16, RET with SP = 0) are included: there the instruction is abandoned (R119),
and that its next state is the one with FAULT and FAULT_ADDR written is the model's choice (log 12). -/
def Obligations.EveryInstructionAnswersANextState : Prop :=
  ∀ (i : Instr) (s : State), ∃ t, exec i s = .next t

/-- The machine's invariant (`Inv`: canonical memory, 20_memory.md R36; a truthful fault status, 60_exceptions.md R117,
R119) is kept by every move of every agent. -/
def Obligations.StepKeepsInvariant : Prop :=
  ∀ s t : State, Inv s → step s = .next t → Inv t

/-- The invariant holds after reset. -/
def Obligations.ResetMeetsInvariant : Prop := Inv State.reset

/-- 10_state.md R29: no move of any agent writes a construction parameter. -/
def Obligations.ParametersAreNeverWritten : Prop :=
  ∀ s t : State, step s = .next t → t.cfg = s.cfg

/-- R34: who writes what. A move that is not the engine's leaves V, I, PC, SP, STACK, MEM, DISP and FAULT alone; only the
engine (by FX15 and FX18) and the timer driver write DT and ST; only the host writes KEYS; the host's two outputs are
DISP and ST > 0. -/
def Obligations.AgentsWriteOnlyTheirState : Prop :=
  (∀ (s t : State) (a : Action) (rest : List Action), s.agenda = a :: rest → a ≠ .engineStep → step s = .next t →
    t.v = s.v ∧ t.i = s.i ∧ t.pc = s.pc ∧ t.sp = s.sp ∧ t.stack = s.stack ∧ t.mem = s.mem ∧ t.disp = s.disp ∧
    t.fault = s.fault ∧ t.faultAddr = s.faultAddr ∧
    (a ≠ .timerTick → t.dt = s.dt ∧ t.st = s.st) ∧ ((∀ m, a ≠ .writeKeys m) → t.keys = s.keys)) ∧
  (∀ (i : Instr) (s t : State), exec i s = .next t →
    t.keys = s.keys ∧ ((∀ x, i ≠ .ldDT x) → t.dt = s.dt) ∧ ((∀ x, i ≠ .ldST x) → t.st = s.st)) ∧
  (∀ s : State, s.framebuffer = s.disp ∧ s.soundOn = decide (s.st.toNat > 0))

/-- R76, 10_state.md R28: an instruction other than EX9E, EXA1 and FX0A does the same whatever KEYS holds. -/
def Obligations.KeysAreReadByThreeInstructions : Prop :=
  ∀ (i : Instr) (s : State) (k : Word), readsKeys i = false →
    exec i (s.withKeys k) = mapNext (State.withKeys k) (exec i s)

/-- 10_state.md R22: no instruction reads ST; FX18 overwrites it. -/
def Obligations.NoInstructionReadsSoundTimer : Prop :=
  ∀ (i : Instr) (s : State) (b : Byte), (∀ x, i ≠ .ldST x) →
    exec i (s.withSound b) = mapNext (State.withSound b) (exec i s)

/-- 30_encoding.md R65: QUIRK changes no decoding, no instruction but 8XY6, 8XYE, BNNN, FX55 and FX65, and each of
these five. -/
def Obligations.QuirkSelectsFiveInstructions : Prop :=
  (∀ (s : State) (q : Quirk), (s.withQuirk q).fetchInstr = s.fetchInstr) ∧
  (∀ (i : Instr) (s : State) (q : Quirk), readsQuirk i = false →
    exec i (s.withQuirk q) = mapNext (State.withQuirk q) (exec i s)) ∧
  (∀ i ∈ [Instr.shr 1 2, .shl 1 2, .jpV0 0x300, .storeRegs 3, .loadRegs 3], ∃ s : State,
    exec i (s.withQuirk .modern) ≠ mapNext (State.withQuirk .modern) (exec i (s.withQuirk .legacy)))

/-- 00_scope.md R5, R6, R8: KEYPAD_LAYOUT and CLOCK_RATE are read by no step; SPRITE_EDGE by DXYN alone; FX29_PRESENT by
FX29 alone. -/
def Obligations.OtherParametersSelectTheirInstruction : Prop :=
  (∀ (s : State) (l : KeypadLayout) (r : Nat),
    step (s.withLayoutAndRate l r) = mapNext (State.withLayoutAndRate l r) (step s)) ∧
  (∀ (i : Instr) (s : State) (e : SpriteEdge), (∀ x y n, i ≠ .drw x y n) →
    exec i (s.withEdge e) = mapNext (State.withEdge e) (exec i s)) ∧
  (∀ (i : Instr) (s : State) (b : Bool), (∀ x, i ≠ .ldF x) →
    exec i (s.withFx29 b) = mapNext (State.withFx29 b) (exec i s))

/-- 10_state.md R24: only CALL and RET touch the call stack, every other instruction neither reads nor writes it, and
an entry `STACK[k]` with `k >= SP` has no influence on what is left outside it. -/
def Obligations.OnlyCallAndRetTouchTheStack : Prop :=
  (∀ (i : Instr) (s : State) (d : Fin 17) (k : Vector Word 16), (∀ x, i ≠ .ret x) → (∀ n, i ≠ .call n) →
    exec i { s with sp := d, stack := k } = mapNext (fun t => { t with sp := d, stack := k }) (exec i s)) ∧
  (∀ (i : Instr) (s t : State) (k : Fin 16) (a : Word), s.sp.val ≤ k.val → exec i s = .next t →
    ∃ t', exec i { s with stack := s.stack.set k.val a } = .next t' ∧ { t' with stack := t.stack } = t ∧
      ∀ j : Fin 16, j.val < t.sp.val → t'.stack[j.val] = t.stack[j.val])

/-- 10_state.md R17, R19 to R22, R24 to R26: whatever an instruction does, it writes no register, cell or other part that
the spec does not list for it. -/
def Obligations.InstructionsWriteOnlyTheListedState : Prop :=
  ∀ (i : Instr) (s t : State), exec i s = .next t →
    SameBut s t (partsWritten i) (registersWritten i) (cellsWritten s i)

/-! ### NOP and the unrecognized words -/

/-- R74: `0000` and no other word is NOP; it does nothing beyond the step's advance. -/
def Obligations.NopDoesNothing : Prop :=
  (∀ w : Word, decode w = .nop ↔ w = 0x0000) ∧
  (∀ x : Reg, x ≠ 0 → decode (wordXNN 0x0 x 0x00) = .unrecognized (wordXNN 0x0 x 0x00)) ∧
  (∀ s : State, exec .nop s = .next s) ∧
  (∀ s : State, EngineMoves s → s.fetchWord = 0x0000 → step s = .next { s with pc := s.pc + 2 })

/-- R75, 60_exceptions.md R121: an unrecognized word emits one diagnostic, its address and the word, and changes nothing
else. That the diagnostics are recorded in a list is the model's choice (log 11). -/
def Obligations.UnrecognizedWordEmitsDiagnostic : Prop :=
  ∀ (s : State) (w : Word), ∃ t, exec (.unrecognized w) s = .next t ∧
    t.diags = ⟨s.pc - 2, w⟩ :: s.diags ∧ SameBut s t [.diags] [] []

/-! ### Control transfer (41_control_flow.md) -/

/-- R79 -/
def Obligations.RetPopsTheCallStack : Prop :=
  DecodesAs 0xF0FF 0x00EE (fun w => .ret (fieldX w)) ∧
  ∀ (s : State) (x : Reg),
    (0 < s.sp.val → ∃ t, exec (.ret x) s = .next t ∧ s.stack[s.sp.val - 1]? = some t.pc ∧
      t.sp.val = s.sp.val - 1 ∧ t.stack = s.stack ∧ SameBut s t [.pc, .stack] [] []) ∧
    (s.sp.val = 0 → ∃ t, exec (.ret x) s = .next t ∧ t.fault = some .stackUnderflow ∧
      t.faultAddr = s.pc - 2 ∧ SameBut s t [.fault] [] [])

/-- R80 -/
def Obligations.JumpSetsPc : Prop :=
  DecodesAs 0xF000 0x1000 (fun w => .jp (fieldNNN w)) ∧
  ∀ (s : State) (nnn : BitVec 12), ∃ t, exec (.jp nnn) s = .next t ∧ t.pc.toNat = nnn.toNat ∧ SameBut s t [.pc] [] []

/-- R81 -/
def Obligations.CallPushesReturnAddress : Prop :=
  DecodesAs 0xF000 0x2000 (fun w => .call (fieldNNN w)) ∧
  ∀ (s : State) (nnn : BitVec 12),
    (s.sp.val < 16 → ∃ t, exec (.call nnn) s = .next t ∧ t.pc.toNat = nnn.toNat ∧ t.sp.val = s.sp.val + 1 ∧
      t.stack[s.sp.val]? = some s.pc ∧ (∀ k : Fin 16, k.val ≠ s.sp.val → t.stack[k.val] = s.stack[k.val]) ∧
      SameBut s t [.pc, .stack] [] []) ∧
    (s.sp.val = 16 → ∃ t, exec (.call nnn) s = .next t ∧ t.fault = some .stackOverflow ∧
      t.faultAddr = s.pc - 2 ∧ SameBut s t [.fault] [] [])

/-- R82 to R85: the skips on registers add 2 to PC when their condition holds, and change nothing else. -/
def Obligations.RegisterSkipsAddTwo : Prop :=
  DecodesAs 0xF000 0x3000 (fun w => .seImm (fieldX w) (fieldNN w)) ∧
  DecodesAs 0xF000 0x4000 (fun w => .sneImm (fieldX w) (fieldNN w)) ∧
  DecodesAs 0xF000 0x5000 (fun w => .seReg (fieldX w) (fieldY w) (fieldN w)) ∧
  DecodesAs 0xF000 0x9000 (fun w => .sneReg (fieldX w) (fieldY w) (fieldN w)) ∧
  ∀ (s : State) (x y : Reg) (nn : Byte) (n : BitVec 4),
    (∃ t, exec (.seImm x nn) s = .next t ∧
      t.pc = (if (s.reg x).toNat = nn.toNat then s.pc + 2 else s.pc) ∧ SameBut s t [.pc] [] []) ∧
    (∃ t, exec (.sneImm x nn) s = .next t ∧
      t.pc = (if (s.reg x).toNat = nn.toNat then s.pc else s.pc + 2) ∧ SameBut s t [.pc] [] []) ∧
    (∃ t, exec (.seReg x y n) s = .next t ∧
      t.pc = (if (s.reg x).toNat = (s.reg y).toNat then s.pc + 2 else s.pc) ∧ SameBut s t [.pc] [] []) ∧
    (∃ t, exec (.sneReg x y n) s = .next t ∧
      t.pc = (if (s.reg x).toNat = (s.reg y).toNat then s.pc else s.pc + 2) ∧ SameBut s t [.pc] [] [])

/-- R86: the sum with V[0] under `Legacy`, with V[X] under `Modern`, unmasked; the next fetch reads the bytes at that PC and
the address after it, each mod 4096. -/
def Obligations.JumpWithOffsetAddsTheQuirkRegister : Prop :=
  DecodesAs 0xF000 0xB000 (fun w => .jpV0 (fieldNNN w)) ∧
  ∀ (s : State) (nnn : BitVec 12), ∃ t, exec (.jpV0 nnn) s = .next t ∧ SameBut s t [.pc] [] [] ∧
    (s.cfg.quirk = .legacy → t.pc.toNat = nnn.toNat + (s.reg 0).toNat) ∧
    (s.cfg.quirk = .modern → ∀ x : Reg, x.val = nnn.toNat / 256 → t.pc.toNat = nnn.toNat + (s.reg x).toNat) ∧
    t.fetchWord.toNat = (Memory.read s.cfg s.mem (t.pc.toNat % 4096)).toNat * 256 +
      (Memory.read s.cfg s.mem ((t.pc.toNat + 1) % 4096)).toNat

/-! ### Registers and arithmetic (42_alu.md) -/

/-- R88, R89: the immediate load and add; the add writes no carry. -/
def Obligations.ImmediateLoadAndAdd : Prop :=
  DecodesAs 0xF000 0x6000 (fun w => .ldImm (fieldX w) (fieldNN w)) ∧
  DecodesAs 0xF000 0x7000 (fun w => .addImm (fieldX w) (fieldNN w)) ∧
  ∀ (s : State) (x : Reg) (nn : Byte),
    (∃ t, exec (.ldImm x nn) s = .next t ∧ t.reg x = nn ∧ SameBut s t [] [x] []) ∧
    (∃ t, exec (.addImm x nn) s = .next t ∧ (t.reg x).toNat = ((s.reg x).toNat + nn.toNat) % 256 ∧
      SameBut s t [] [x] [])

/-- R90 to R93: copy, OR, AND, XOR, bit by bit; VF is not reset. -/
def Obligations.CopyAndLogicBitByBit : Prop :=
  DecodesAs 0xF00F 0x8000 (fun w => .ldReg (fieldX w) (fieldY w)) ∧
  DecodesAs 0xF00F 0x8001 (fun w => .orReg (fieldX w) (fieldY w)) ∧
  DecodesAs 0xF00F 0x8002 (fun w => .andReg (fieldX w) (fieldY w)) ∧
  DecodesAs 0xF00F 0x8003 (fun w => .xorReg (fieldX w) (fieldY w)) ∧
  ∀ (s : State) (x y : Reg),
    (∃ t, exec (.ldReg x y) s = .next t ∧ t.reg x = s.reg y ∧ SameBut s t [] [x] []) ∧
    (∃ t, exec (.orReg x y) s = .next t ∧ SameBut s t [] [x] [] ∧
      ∀ k, k < 8 → (t.reg x).getLsbD k = ((s.reg x).getLsbD k || (s.reg y).getLsbD k)) ∧
    (∃ t, exec (.andReg x y) s = .next t ∧ SameBut s t [] [x] [] ∧
      ∀ k, k < 8 → (t.reg x).getLsbD k = ((s.reg x).getLsbD k && (s.reg y).getLsbD k)) ∧
    (∃ t, exec (.xorReg x y) s = .next t ∧ SameBut s t [] [x] [] ∧
      ∀ k, k < 8 → (t.reg x).getLsbD k = ((s.reg x).getLsbD k ^^ (s.reg y).getLsbD k))

/-- R94: the sum, then the carry in VF; with X = 15 the sum is lost. -/
def Obligations.AddRegistersCarryLast : Prop :=
  DecodesAs 0xF00F 0x8004 (fun w => .addReg (fieldX w) (fieldY w)) ∧
  ∀ (s : State) (x y : Reg), ∃ t, exec (.addReg x y) s = .next t ∧ SameBut s t [] [x, 15] [] ∧
    (t.reg 15).toNat = (if (s.reg x).toNat + (s.reg y).toNat > 255 then 1 else 0) ∧
    (x ≠ 15 → (t.reg x).toNat = ((s.reg x).toNat + (s.reg y).toNat) % 256)

/-- R95, R97: the flag first (1 = no borrow), then the difference, which reads VF as just written where X or Y is 15. -/
def Obligations.SubtractFlagFirst : Prop :=
  DecodesAs 0xF00F 0x8005 (fun w => .subReg (fieldX w) (fieldY w)) ∧
  DecodesAs 0xF00F 0x8007 (fun w => .subn (fieldX w) (fieldY w)) ∧
  ∀ (s : State) (x y : Reg),
    (∃ (t : State) (f a b : Nat), exec (.subReg x y) s = .next t ∧ SameBut s t [] [x, 15] [] ∧
      f = (if (s.reg x).toNat ≥ (s.reg y).toNat then 1 else 0) ∧
      a = (if x = 15 then f else (s.reg x).toNat) ∧ b = (if y = 15 then f else (s.reg y).toNat) ∧
      (t.reg x).toNat = (a + 256 - b) % 256 ∧ (x ≠ 15 → (t.reg 15).toNat = f)) ∧
    (∃ (t : State) (f a b : Nat), exec (.subn x y) s = .next t ∧ SameBut s t [] [x, 15] [] ∧
      f = (if (s.reg y).toNat ≥ (s.reg x).toNat then 1 else 0) ∧
      a = (if x = 15 then f else (s.reg x).toNat) ∧ b = (if y = 15 then f else (s.reg y).toNat) ∧
      (t.reg x).toNat = (b + 256 - a) % 256 ∧ (x ≠ 15 → (t.reg 15).toNat = f))

/-- R96, R98: the value shifted is V[Y] under `Legacy` and V[X] under `Modern`; VF gets the bit shifted out, before the
shift, so that with X = 15 the flag itself is shifted. -/
def Obligations.ShiftFlagBeforeShift : Prop :=
  DecodesAs 0xF00F 0x8006 (fun w => .shr (fieldX w) (fieldY w)) ∧
  DecodesAs 0xF00F 0x800E (fun w => .shl (fieldX w) (fieldY w)) ∧
  ∀ (s : State) (x y : Reg) (z : Nat),
    z = (if s.cfg.quirk = .legacy then (s.reg y).toNat else (s.reg x).toNat) →
    (∃ t, exec (.shr x y) s = .next t ∧ SameBut s t [] [x, 15] [] ∧
      (x ≠ 15 → (t.reg x).toNat = z / 2 ∧ (t.reg 15).toNat = z % 2) ∧ (x = 15 → (t.reg 15).toNat = 0)) ∧
    (∃ t, exec (.shl x y) s = .next t ∧ SameBut s t [] [x, 15] [] ∧
      (x ≠ 15 → (t.reg x).toNat = z * 2 % 256 ∧ (t.reg 15).toNat = z / 128) ∧
      (x = 15 → (t.reg 15).toNat = z / 128 * 2))

/-- R99: a fresh draw masked by NN, for every byte the draw may be (the free value `Config.freeByte`, log 10). -/
def Obligations.RandomByteIsMasked : Prop :=
  DecodesAs 0xF000 0xC000 (fun w => .rnd (fieldX w) (fieldNN w)) ∧
  ∀ (s : State) (x : Reg) (nn r : Byte), r = Config.freeByte s.draws →
    ∃ t, exec (.rnd x nn) s = .next t ∧ SameBut s t [.draws] [x] [] ∧ t.draws = s.draws + 1 ∧
      ∀ k, k < 8 → (t.reg x).getLsbD k = (r.getLsbD k && nn.getLsbD k)

/-! ### Index register and memory (43_index_memory.md) -/

/-- R101, R102: I is loaded with NNN; V[X] is added to I mod 65536, VF telling whether the sum reached 0x1000. -/
def Obligations.IndexLoadAndAdd : Prop :=
  DecodesAs 0xF000 0xA000 (fun w => .ldI (fieldNNN w)) ∧
  DecodesAs 0xF0FF 0xF01E (fun w => .addI (fieldX w)) ∧
  (∀ (s : State) (nnn : BitVec 12), ∃ t, exec (.ldI nnn) s = .next t ∧ t.i.toNat = nnn.toNat ∧ SameBut s t [.i] [] []) ∧
  (∀ (s : State) (x : Reg), ∃ t, exec (.addI x) s = .next t ∧ SameBut s t [.i] [15] [] ∧
    t.i.toNat = (s.i.toNat + (s.reg x).toNat) % 65536 ∧
    (t.reg 15).toNat = (if s.i.toNat + (s.reg x).toNat ≥ 0x1000 then 1 else 0))

/-- R103: the glyph address of the low nibble when FX29 is present; otherwise the word does what an unrecognized word does.
That FX29 decodes to its own row whatever FX29_PRESENT is, and its meaning looks, is the model's choice (log 5): by R59 and
R62 the word is unrecognized when FX29_PRESENT is false. -/
def Obligations.GlyphAddressOrDiagnostic : Prop :=
  DecodesAs 0xF0FF 0xF029 (fun w => .ldF (fieldX w)) ∧
  ∀ (s : State) (x : Reg),
    (s.cfg.fx29Present = true → ∃ t, exec (.ldF x) s = .next t ∧ SameBut s t [.i] [] [] ∧
      t.i.toNat = s.cfg.fontBase.val + 5 * ((s.reg x).toNat % 16)) ∧
    (s.cfg.fx29Present = false → ∀ w : Word, w.toNat = 0xF029 + 0x100 * x.val →
      exec (.ldF x) s = exec (.unrecognized w) s)

/-- R104 -/
def Obligations.BcdStoresThreeDigits : Prop :=
  DecodesAs 0xF0FF 0xF033 (fun w => .ldB (fieldX w)) ∧
  ∀ (s : State) (x : Reg), ∃ t, exec (.ldB x) s = .next t ∧
    SameBut s t [] [] [memAddr s.i, memAddr (indexed s.i 1), memAddr (indexed s.i 2)] ∧
    (t.memRead s.i).toNat = (s.reg x).toNat / 100 ∧
    (t.memRead (s.i + 1)).toNat = (s.reg x).toNat / 10 % 10 ∧
    (t.memRead (s.i + 2)).toNat = (s.reg x).toNat % 10

/-- R105 -/
def Obligations.BlockStoreWritesRegisters : Prop :=
  DecodesAs 0xF0FF 0xF055 (fun w => .storeRegs (fieldX w)) ∧
  ∀ (s : State) (x : Reg), ∃ t, exec (.storeRegs x) s = .next t ∧
    SameBut s t [.i] [] ((List.range (x.val + 1)).map (fun k => memAddr (indexed s.i k))) ∧
    (∀ k : Reg, k ≤ x → t.memRead (s.i + BitVec.ofNat 16 k.val) = s.reg k) ∧
    (s.cfg.quirk = .legacy → t.i.toNat = (s.i.toNat + x.val + 1) % 65536) ∧ (s.cfg.quirk = .modern → t.i = s.i)

/-- R106 -/
def Obligations.BlockLoadReadsMemory : Prop :=
  DecodesAs 0xF0FF 0xF065 (fun w => .loadRegs (fieldX w)) ∧
  ∀ (s : State) (x : Reg), ∃ t, exec (.loadRegs x) s = .next t ∧
    SameBut s t [.i] (blockRegs x) [] ∧
    (∀ k : Reg, k ≤ x → t.reg k = s.memRead (s.i + BitVec.ofNat 16 k.val)) ∧ (∀ k : Reg, x < k → t.reg k = s.reg k) ∧
    (s.cfg.quirk = .legacy → t.i.toNat = (s.i.toNat + x.val + 1) % 65536) ∧ (s.cfg.quirk = .modern → t.i = s.i)

/-! ### Display (44_display.md) -/

/-- R107 -/
def Obligations.ClearUnlightsEveryPixel : Prop :=
  DecodesAs 0xF0FF 0x00E0 (fun w => .cls (fieldX w)) ∧
  ∀ (s : State) (x : Reg), ∃ t, exec (.cls x) s = .next t ∧ SameBut s t [.disp] [] [] ∧
    (∀ y : Fin 32, t.disp[y.val] = 0) ∧ ∀ (px : Fin 64) (py : Fin 32), t.pixel px py = false

/-- R108: under `Clip`, a pixel flips exactly if a sprite bit 1 falls on it, unwrapped, from the wrapped anchor; VF is 1
exactly if one of them was lit. The anchor and the sprite bytes are read before VF is cleared. -/
def Obligations.DrawClipsAtTheEdges : Prop :=
  DecodesAs 0xF000 0xD000 (fun w => .drw (fieldX w) (fieldY w) (fieldN w)) ∧
  ∀ (s : State) (x y : Reg) (n : BitVec 4) (x0 y0 : Nat) (hit : Fin 64 → Fin 32 → Prop),
    s.cfg.spriteEdge = .clip → x0 = (s.reg x).toNat % 64 → y0 = (s.reg y).toNat % 32 →
    (∀ px py, hit px py ↔ ∃ r < n.toNat, ∃ c < 8, px.val = x0 + c ∧ py.val = y0 + r ∧
      (s.memRead (s.i + BitVec.ofNat 16 r)).getLsbD (7 - c) = true) →
    ∃ t, exec (.drw x y n) s = .next t ∧ SameBut s t [.disp] [15] [] ∧
      (∀ px py, (hit px py → t.pixel px py = !s.pixel px py) ∧ (¬ hit px py → t.pixel px py = s.pixel px py)) ∧
      ((∃ px py, hit px py ∧ s.pixel px py = true) → t.reg 15 = 1) ∧
      ((¬ ∃ px py, hit px py ∧ s.pixel px py = true) → t.reg 15 = 0)

/-- R109: under `Wrap`, the same with columns mod 64 and rows mod 32. -/
def Obligations.DrawWrapsAtTheEdges : Prop :=
  DecodesAs 0xF000 0xD000 (fun w => .drw (fieldX w) (fieldY w) (fieldN w)) ∧
  ∀ (s : State) (x y : Reg) (n : BitVec 4) (x0 y0 : Nat) (hit : Fin 64 → Fin 32 → Prop),
    s.cfg.spriteEdge = .wrap → x0 = (s.reg x).toNat % 64 → y0 = (s.reg y).toNat % 32 →
    (∀ px py, hit px py ↔ ∃ r < n.toNat, ∃ c < 8, px.val = (x0 + c) % 64 ∧ py.val = (y0 + r) % 32 ∧
      (s.memRead (s.i + BitVec.ofNat 16 r)).getLsbD (7 - c) = true) →
    ∃ t, exec (.drw x y n) s = .next t ∧ SameBut s t [.disp] [15] [] ∧
      (∀ px py, (hit px py → t.pixel px py = !s.pixel px py) ∧ (¬ hit px py → t.pixel px py = s.pixel px py)) ∧
      ((∃ px py, hit px py ∧ s.pixel px py = true) → t.reg 15 = 1) ∧
      ((¬ ∃ px py, hit px py ∧ s.pixel px py = true) → t.reg 15 = 0)

/-- R108's example in general (95_test_vectors.md S7): drawing the same sprite twice restores the display; from a blank
display the second draw sets VF exactly if the first drew anything. With X or Y = 15 the first draw's VF is the second's
origin, so that form is left to the two statements above. -/
def Obligations.DrawingTwiceRestoresTheDisplay : Prop :=
  ∀ (s : State) (x y : Reg) (n : BitVec 4), x ≠ 15 → y ≠ 15 →
    ∃ t u, exec (.drw x y n) s = .next t ∧ exec (.drw x y n) t = .next u ∧ u.disp = s.disp ∧
      ((∀ px py, s.pixel px py = false) → (u.reg 15 = 1 ↔ t.disp ≠ s.disp))

/-! ### Timers and input (45_timers_input.md) -/

/-- R110 to R112 (60_exceptions.md R131): the timers are read and written whole; the sound output follows ST. -/
def Obligations.TimersMoveThroughRegisters : Prop :=
  DecodesAs 0xF0FF 0xF007 (fun w => .ldVxDT (fieldX w)) ∧
  DecodesAs 0xF0FF 0xF015 (fun w => .ldDT (fieldX w)) ∧
  DecodesAs 0xF0FF 0xF018 (fun w => .ldST (fieldX w)) ∧
  ∀ (s : State) (x : Reg),
    (∃ t, exec (.ldVxDT x) s = .next t ∧ t.reg x = s.dt ∧ SameBut s t [] [x] []) ∧
    (∃ t, exec (.ldDT x) s = .next t ∧ t.dt = s.reg x ∧ SameBut s t [.dt] [] []) ∧
    (∃ t, exec (.ldST x) s = .next t ∧ t.st = s.reg x ∧ SameBut s t [.st] [] [] ∧
      (t.soundOn = true ↔ s.reg x ≠ 0))

/-- R113, R114, R116: the key skips; the index is the register's value, and 16 to 255 name no key, which reads 0. -/
def Obligations.KeySkipsFollowTheLatch : Prop :=
  DecodesAs 0xF0FF 0xE09E (fun w => .skp (fieldX w)) ∧
  DecodesAs 0xF0FF 0xE0A1 (fun w => .sknp (fieldX w)) ∧
  ∀ (s : State) (x : Reg) (bit : Nat),
    bit = (if (s.reg x).toNat < 16 then s.keys.toNat / 2 ^ (s.reg x).toNat % 2 else 0) →
    (∃ t, exec (.skp x) s = .next t ∧ t.pc = (if bit = 1 then s.pc + 2 else s.pc) ∧ SameBut s t [.pc] [] []) ∧
    (∃ t, exec (.sknp x) s = .next t ∧ t.pc = (if bit = 0 then s.pc + 2 else s.pc) ∧ SameBut s t [.pc] [] [])

/-- R115: FX0A goes on when bit X of KEYS is 1 and goes back to itself when it is 0; no register is written. -/
def Obligations.WaitKeyRewindsUntilHeld : Prop :=
  DecodesAs 0xF0FF 0xF00A (fun w => .wkey (fieldX w)) ∧
  ∀ (s : State) (x : Reg), ∃ t, exec (.wkey x) s = .next t ∧ SameBut s t [.pc] [] [] ∧
    (s.keys.toNat / 2 ^ x.val % 2 = 0 → t.pc = s.pc - 2) ∧ (s.keys.toNat / 2 ^ x.val % 2 = 1 → t.pc = s.pc)

/-! ### Faults (60_exceptions.md) -/

/-- R119: CALL on a full stack and RET on an empty one record the cause and the instruction's address and do nothing
else; the engine then takes no step, and the timers and the host keep running. That the missing step answers a named
fault, and that a strobe changes nothing, is the model's choice (log 12). -/
def Obligations.ControlFlowFaultEntry : Prop :=
  (∀ (s : State) (nnn : BitVec 12), s.sp.val = 16 → ∃ t, exec (.call nnn) s = .next t ∧
    t.fault = some .stackOverflow ∧ t.faultAddr = s.pc - 2 ∧ SameBut s t [.fault] [] []) ∧
  (∀ (s : State) (x : Reg), s.sp.val = 0 → ∃ t, exec (.ret x) s = .next t ∧
    t.fault = some .stackUnderflow ∧ t.faultAddr = s.pc - 2 ∧ SameBut s t [.fault] [] []) ∧
  (∀ s : State, s.running = true → s.agenda = [] →
    (s.fault = some .stackOverflow → step s = .fault (.stackOverflow s.faultAddr)) ∧
    (s.fault = some .stackUnderflow → step s = .fault (.stackUnderflow s.faultAddr))) ∧
  (∀ (s : State) (rest : List Action), s.fault ≠ none →
    (s.agenda = .engineStep :: rest → step s = .next { s with agenda := rest }) ∧
    (s.agenda = .timerTick :: rest → s.running = true → ∃ t, step s = .next t ∧ t.dt.toNat = s.dt.toNat - 1) ∧
    (∀ m, s.agenda = .writeKeys m :: rest → ∃ t, step s = .next t ∧ t.keys = m))

/-- R118, R120: a fault is never cleared, and while it stands no move changes what the engine owns. -/
def Obligations.FaultIsNeverCleared : Prop :=
  ∀ (s t : State) (c : FlowCause), s.fault = some c → step s = .next t →
    t.fault = some c ∧ t.faultAddr = s.faultAddr ∧ t.pc = s.pc ∧ t.v = s.v ∧ t.i = s.i ∧ t.sp = s.sp ∧
    t.stack = s.stack ∧ t.mem = s.mem ∧ t.disp = s.disp ∧ t.diags = s.diags

/-- R118, R117: the codes of the fault output. -/
def Obligations.FaultCodesOnThePort : Prop :=
  ∀ s : State, (s.faultCode = 0 ↔ s.fault = none) ∧ (s.faultCode = 1 ↔ s.fault = some .stackOverflow) ∧
    (s.faultCode = 2 ↔ s.fault = some .stackUnderflow)

/-! ### The other agents (60_exceptions.md) -/

/-- R129: one timer tick, also while the engine is faulted or waits, and none after shutdown. -/
def Obligations.TimerTickCountsBothDown : Prop :=
  ∀ (s : State) (rest : List Action), s.agenda = .timerTick :: rest →
    (s.running = true → ∃ t, step s = .next t ∧
      t.dt.toNat = (if s.dt.toNat > 0 then s.dt.toNat - 1 else 0) ∧
      t.st.toNat = (if s.st.toNat > 0 then s.st.toNat - 1 else 0) ∧
      t = { s with dt := t.dt, st := t.st, agenda := rest }) ∧
    (s.running = false → step s = .next { s with agenda := rest })

/-- R130, 95_test_vectors.md S9: `n` timer ticks take `n` off each timer and stop at 0. -/
def Obligations.TimersReachZeroAndStay : Prop :=
  ∀ (n : Nat) (s : State), s.running = true →
    ((timerTick^[n]) s).dt.toNat = s.dt.toNat - n ∧ ((timerTick^[n]) s).st.toNat = s.st.toNat - n

/-- 20_memory.md R51: a timer written by FX15 or FX18 and ticked once holds one less, or 0. -/
def Obligations.TimerWriteIsNotLost : Prop :=
  ∀ (s : State) (x : Reg), s.running = true →
    (∃ t, exec (.ldDT x) s = .next t ∧ (timerTick t).dt.toNat = max ((s.reg x).toNat - 1) 0) ∧
    (∃ t, exec (.ldST x) s = .next t ∧ (timerTick t).st.toNat = max ((s.reg x).toNat - 1) 0)

/-- R133, R135: the host's write of KEYS replaces all 16 bits; after shutdown there is no engine step and no tick.
That a write of KEYS still lands after shutdown is the model's choice (log 13). -/
def Obligations.HostWritesKeysAndShutsDown : Prop :=
  (∀ (s : State) (m : Word) (rest : List Action), s.agenda = .writeKeys m :: rest →
    step s = .next { s with keys := m, agenda := rest }) ∧
  (∀ (s : State) (rest : List Action), s.agenda = .shutdown :: rest →
    step s = .next { s with running := false, agenda := rest }) ∧
  (∀ s : State, s.running = false → s.agenda = [] → step s = .fault .shutDown) ∧
  (∀ (s : State) (a : Action) (rest : List Action), s.running = false → s.agenda = a :: rest →
    ∃ t, step s = .next t ∧ t.running = false ∧ t.pc = s.pc ∧ t.v = s.v ∧ t.i = s.i ∧ t.mem = s.mem ∧
      t.disp = s.disp ∧ t.dt = s.dt ∧ t.st = s.st)

/-! ### Construction (70_reset_and_hazards.md) -/

/-- R139 to R142, 10_state.md R33: what construction leaves, for every parameter, launch value and ROM that fits; the
engine then fetches from 0x200. -/
def Obligations.ConstructionLoadsFontAndRom : Prop :=
  ∀ (cfg : Config) (l : Launch) (rom : List Byte), rom.length ≤ 3584 →
    ∃ s, construct cfg l (some rom) = .next s ∧ Inv s ∧
      s.cfg = cfg ∧ s.pc = 0x200 ∧ s.dt = 0 ∧ s.st = 0 ∧ s.sp = 0 ∧ s.fault = none ∧ s.running = true ∧ s.diags = [] ∧
      s.v = l.v ∧ s.i = l.i ∧ s.disp = l.disp ∧ s.stack = l.stack ∧ s.keys = l.keys ∧ s.agenda = l.agenda ∧
      (∀ k : Fin 80, Memory.read cfg s.mem (cfg.fontBase.val + k.val) = cfg.fontData[k.val]) ∧
      (∀ k, (h : k < rom.length) → Memory.read cfg s.mem (0x200 + k) = rom[k]) ∧
      (∀ a, a < 4096 → ¬ (cfg.fontBase.val ≤ a ∧ a < cfg.fontBase.val + 80) → ¬ (0x200 ≤ a ∧ a < 0x200 + rom.length) →
        Memory.read cfg s.mem a = Memory.read cfg (allocate cfg l.mem) a) ∧
      (2 ≤ rom.length → s.fetchWord.toNat = (rom[0]?.getD 0).toNat * 256 + (rom[1]?.getD 0).toNat)

/-- 60_exceptions.md R122: no ROM, or one too long, and no core is constructed. -/
def Obligations.ConstructionRefusesBadRom : Prop :=
  ∀ (cfg : Config) (l : Launch),
    construct cfg l none = .refused .romMissing ∧
    ∀ rom : List Byte, (3584 < rom.length ↔ ∀ s, construct cfg l (some rom) ≠ .next s) ∧
      (3584 < rom.length → construct cfg l (some rom) = .refused (.romTooLong rom.length))

/-- 10_state.md R33: the values the spec gives for reset, in `State.reset`; the font bytes are the table of R27 (D6).
The values the spec leaves open are not part of this statement. -/
def Obligations.ResetValuesOfTheSpec : Prop :=
  State.reset.pc = 0x200 ∧ State.reset.dt = 0 ∧ State.reset.st = 0 ∧ State.reset.sp = 0 ∧ State.reset.fault = none ∧
  State.reset.running = true ∧
  ∀ k : Fin 80, Memory.read State.reset.cfg State.reset.mem (State.reset.cfg.fontBase.val + k.val) =
    State.reset.cfg.fontData[k.val]

/-! ### Runs (40_control_unit.md, 20_memory.md) -/

/-- R78: the engine is awaiting key K exactly when the word at PC is FX0A with X = K and bit K of KEYS is 0. By R70 and R115
the engine's step then changes nothing at all (with nothing on the agenda before it, the model's choice: log 9). -/
def Obligations.AwaitingKeyStepChangesNothing : Prop :=
  (∀ (s : State) (k : Reg), s.awaitingKey = some k ↔
    s.fault = none ∧ s.fetchWord = wordXNN 0xF k 0x0A ∧ s.keys.toNat / 2 ^ k.val % 2 = 0) ∧
  (∀ (s : State) (k : Reg), EngineMoves s → s.awaitingKey = some k → step s = .next s)

/-- R77: at a self-jump the engine's step leaves all state unchanged, and PC is at most 0x0FFF; a JP whose step changes
nothing is such a self-jump. -/
def Obligations.SelfJumpIsAFixedPoint : Prop :=
  (∀ s : State, EngineMoves s → AtSelfJump s → s.pc.toNat ≤ 0x0FFF ∧ step s = .next s) ∧
  (∀ (s : State) (nnn : BitVec 12), EngineMoves s → s.fetchInstr = .jp nnn → step s = .next s → AtSelfJump s)

/-- 20_memory.md R49, 70_reset_and_hazards.md R145: two bytes FX55 stores where the engine fetches next are the
instruction it fetches, with nothing between. -/
def Obligations.StoredWordIsFetchedNext : Prop :=
  ∀ (s t : State) (x k j : Reg), exec (.storeRegs x) s = .next t → k ≤ x → j ≤ x → j.val = k.val + 1 →
    memAddr s.pc = memAddr (s.i + BitVec.ofNat 16 k.val) →
    t.fetchWord.toNat = (s.reg k).toNat * 256 + (s.reg j).toNat

/-- 20_memory.md R38, R43: two addresses equal mod 4096 name one byte; a read after a write gives the byte written there
and the old byte elsewhere; no address is out of the space. -/
def Obligations.AddressesReduceModuloTheSpace : Prop :=
  ∀ (s : State) (a c : Word) (b : Byte),
    (a.toNat % 4096 = c.toNat % 4096 → (s.memWrite a b).memRead c = b ∧ s.memRead a = s.memRead c ∧
      s.memWrite a b = s.memWrite c b) ∧
    (a.toNat % 4096 ≠ c.toNat % 4096 → (s.memWrite a b).memRead c = s.memRead c)
end

