-- ==== Sys2Proof/Laws/Memory.lean ====
section
/-! SUPPORT. The laws of memory: a read after a write, and that every operation keeps the canonical form. -/

namespace Sys2Proof.Machine.Memory

variable {cfg cfg' : Config} {m : List Host.Cell} {a b : Nat} {x : Byte}

@[simp] theorem read_nil : read cfg [] a = initialByte cfg a := rfl

theorem read_cons (c : Host.Cell) : read cfg (c :: m) a = if c.1 = a then c.2 else read cfg m a := rfl

/-! ### Reads -/

theorem read_erase : read cfg (erase a m) b = if a = b then initialByte cfg b else read cfg m b := by
  induction m with
  | nil => simp [erase]
  | cons c m ih =>
    by_cases hc : c.1 = a
    · have : erase a (c :: m) = erase a m := by simp [erase, hc]
      rw [this, ih, read_cons, hc]
      by_cases hab : a = b <;> simp [hab]
    · have : erase a (c :: m) = c :: erase a m := by simp [erase, hc]
      rw [this, read_cons, ih, read_cons]
      by_cases hab : a = b
      · subst hab; simp [hc]
      · simp [hab]

theorem read_insert (h : ∀ c ∈ m, c.1 ≠ a) : read cfg (insert a x m) b = if a = b then x else read cfg m b := by
  induction m with
  | nil => rfl
  | cons c m ih =>
    have hc : c.1 ≠ a := h c (by simp)
    by_cases hlt : a < c.1
    · simp [insert, hlt, read_cons]
    · rw [insert, if_neg hlt, read_cons, ih (fun d hd => h d (by simp [hd])), read_cons]
      by_cases hab : a = b
      · subst hab; simp [hc]
      · simp [hab]

theorem mem_erase {c : Host.Cell} : c ∈ erase a m ↔ c ∈ m ∧ c.1 ≠ a := by
  simp [erase]

/-- A read after a write: the byte written at its address, the old byte everywhere else (20_memory.md R43). -/
@[simp] theorem read_write : read cfg (write cfg m a x) b = if a = b then x else read cfg m b := by
  unfold write
  split
  · rename_i hx
    rw [read_erase]
    by_cases hab : a = b
    · simp [hab, hx]
    · simp [hab]
  · rw [read_insert (fun c hc => (mem_erase.1 hc).2), read_erase]
    by_cases hab : a = b <;> simp [hab]

/-- Reading looks at the configuration through `initialByte` only. -/
theorem read_congr (h : ∀ n, initialByte cfg n = initialByte cfg' n) : read cfg m a = read cfg' m a := by
  induction m with
  | nil => exact h a
  | cons c m ih => rw [read_cons, read_cons, ih]

theorem write_congr (h : ∀ n, initialByte cfg n = initialByte cfg' n) : write cfg m a x = write cfg' m a x := by
  rw [write, write, h]

/-! ### The canonical form -/

theorem mem_insert {c : Host.Cell} : c ∈ insert a x m ↔ c = (a, x) ∨ c ∈ m := by
  induction m with
  | nil => simp [insert]
  | cons d m ih =>
    by_cases hlt : a < d.1
    · simp [insert, hlt]
    · rw [insert, if_neg hlt, List.mem_cons, ih, List.mem_cons]
      tauto

theorem sorted_insert (h : ∀ c ∈ m, c.1 ≠ a) (hm : m.Pairwise (fun c d => c.1 < d.1)) :
    (insert a x m).Pairwise (fun c d => c.1 < d.1) := by
  induction m with
  | nil => simp [insert]
  | cons d m ih =>
    have ⟨hd, hm'⟩ := List.pairwise_cons.1 hm
    have hda : d.1 ≠ a := h d (by simp)
    by_cases hlt : a < d.1
    · rw [insert, if_pos hlt]
      refine List.pairwise_cons.2 ⟨fun c hc => ?_, hm⟩
      rcases List.mem_cons.1 hc with rfl | hc
      · exact hlt
      · exact Nat.lt_trans hlt (hd c hc)
    · rw [insert, if_neg hlt]
      refine List.pairwise_cons.2 ⟨fun c hc => ?_, ih (fun c hc => h c (by simp [hc])) hm'⟩
      rcases mem_insert.1 hc with rfl | hc
      · exact Nat.lt_of_le_of_ne (Nat.le_of_not_lt hlt) hda
      · exact hd c hc

/-- A write inside the space keeps the canonical form. -/
theorem wf_write (h : wf cfg m) (ha : a < 4096) : wf cfg (write cfg m a x) := by
  have herase : wf cfg (erase a m) := ⟨h.1.filter _, fun c hc => h.2 c (mem_erase.1 hc).1⟩
  unfold write
  split
  · exact herase
  · rename_i hx
    refine ⟨sorted_insert (fun c hc => (mem_erase.1 hc).2) herase.1, fun c hc => ?_⟩
    rcases mem_insert.1 hc with rfl | hc
    · exact ⟨ha, hx⟩
    · exact herase.2 c hc

theorem wf_nil : wf cfg [] := ⟨List.Pairwise.nil, by simp⟩

theorem wf_writeBytes {bs : List Byte} (h : wf cfg m) (ha : a + bs.length ≤ 4096) :
    wf cfg (writeBytes cfg m a bs) := by
  induction bs generalizing m a with
  | nil => exact h
  | cons b bs ih =>
    simp only [List.length_cons] at ha
    exact ih (wf_write h (by omega)) (by omega)

/-- What the loader leaves: the bytes where it wrote, the old bytes elsewhere. -/
theorem read_writeBytes {bs : List Byte} :
    read cfg (writeBytes cfg m a bs) b = if h : a ≤ b ∧ b - a < bs.length then bs[b - a]'h.2 else read cfg m b := by
  induction bs generalizing m a with
  | nil => simp [writeBytes]
  | cons c bs ih =>
    rw [writeBytes, ih, read_write]
    by_cases hab : a = b
    · subst hab
      rw [dif_neg (by omega), if_pos rfl, dif_pos (by simp)]
      simp
    · by_cases h : a + 1 ≤ b ∧ b - (a + 1) < bs.length
      · rw [dif_pos h, dif_pos (by simp; omega)]
        have : b - a = (b - (a + 1)) + 1 := by omega
        simp [this]
      · rw [dif_neg h, if_neg hab, dif_neg (by simp; omega)]

end Sys2Proof.Machine.Memory
end

