-- ==== Sys2Proof/Laws/Construct.lean ====
section
/-! SUPPORT. The laws of the loader and of construction (70_reset_and_hazards.md R139). -/

namespace Sys2Proof.Machine

namespace Memory

variable {cfg : Config}

/-- Writing what unlisted memory reads as lists nothing. -/
theorem writeBytes_initial (bs : List Byte) (a : Nat) (h : ∀ k, (hk : k < bs.length) → bs[k] = initialByte cfg (a + k)) :
    writeBytes cfg [] a bs = [] := by
  induction bs generalizing a with
  | nil => rfl
  | cons x bs ih =>
    have h0 : x = initialByte cfg a := h 0 (by simp)
    have hw : write cfg [] a x = [] := by simp [write, h0, erase]
    simp only [writeBytes, hw]
    refine ih (a + 1) fun k hk => ?_
    have := h (k + 1) (by simpa using hk)
    rw [List.getElem_cons_succ] at this
    rw [this, show a + (k + 1) = a + 1 + k by omega]

/-- The font loaded into empty memory lists nothing: unlisted memory reads as the font there. -/
theorem writeBytes_font : writeBytes cfg [] cfg.fontBase.val cfg.fontData.toList = [] := by
  refine writeBytes_initial _ _ fun k hk => ?_
  have hk' : k < 80 := by simpa using hk
  simp [initialByte, fontByte, hk']

end Memory

/-- Allocated memory is in canonical form. -/
theorem wf_allocate (cfg : Config) (cells : List Host.Cell) : Memory.wf cfg (allocate cfg cells) := by
  have key : ∀ (l : List Host.Cell) (m : List Host.Cell), Memory.wf cfg m →
      Memory.wf cfg (l.foldl (fun m c => Memory.write cfg m (c.1 % 4096) c.2) m) := by
    intro l
    induction l with
    | nil => intro m h; exact h
    | cons c l ih => intro m h; exact ih _ (Memory.wf_write h (Nat.mod_lt _ (by decide)))
  exact key cells [] Memory.wf_nil

/-- Construction with zeros and an empty ROM leaves the reset state, for any parameters. -/
theorem construct_zero (cfg : Config) :
    construct cfg Launch.zero (some []) = .next { State.reset with cfg := cfg } := by
  simp only [construct, List.length_nil, Nat.not_lt_zero, if_false]
  have h : initialMemory cfg Launch.zero.mem [] = [] := by
    simp only [initialMemory, Memory.writeBytes, Launch.zero, allocate, List.foldl_nil]
    exact Memory.writeBytes_font
  rw [h]
  rfl

end Sys2Proof.Machine
end

