-- ==== Sys2Proof/Laws/Decode.lean ====
section
/-! SUPPORT. The fields of a word as numbers, and the fields of the words the encoder makes. -/

namespace Sys2Proof

/-! ### Fields as numbers (30_encoding.md R54) -/

theorem toNat_familyOf (w : Word) : (familyOf w).toNat = w.toNat / 0x1000 := by
  simp [familyOf, BitVec.extractLsb'_toNat, Nat.shiftRight_eq_div_pow]
  omega

theorem val_fieldX (w : Word) : (fieldX w).val = w.toNat / 0x100 % 16 := by
  simp [fieldX, Nat.shiftRight_eq_div_pow]

theorem val_fieldY (w : Word) : (fieldY w).val = w.toNat / 0x10 % 16 := by
  simp [fieldY, Nat.shiftRight_eq_div_pow]

theorem toNat_fieldN (w : Word) : (fieldN w).toNat = w.toNat % 16 := by
  simp [fieldN, BitVec.extractLsb'_toNat]

theorem toNat_fieldNN (w : Word) : (fieldNN w).toNat = w.toNat % 256 := by
  simp [fieldNN, BitVec.extractLsb'_toNat]

theorem toNat_fieldNNN (w : Word) : (fieldNNN w).toNat = w.toNat % 4096 := by
  simp [fieldNNN, BitVec.extractLsb'_toNat]

/-! ### The encoder's words as numbers -/

theorem toNat_wordXYN {f n : Nat} {x y : Reg} (hf : f < 16) (hn : n < 16) :
    (wordXYN f x y n).toNat = f * 0x1000 + x.val * 0x100 + y.val * 0x10 + n := by
  simp only [wordXYN, BitVec.toNat_ofNat]
  omega

theorem toNat_wordXNN {f n : Nat} {x : Reg} (hf : f < 16) (hn : n < 256) :
    (wordXNN f x n).toNat = f * 0x1000 + x.val * 0x100 + n := by
  simp only [wordXNN, BitVec.toNat_ofNat]
  omega

theorem toNat_wordNNN {f : Nat} {nnn : BitVec 12} (hf : f < 16) :
    (wordNNN f nnn).toNat = f * 0x1000 + nnn.toNat := by
  simp only [wordNNN, BitVec.toNat_ofNat]
  omega

/-! ### The fields of the encoder's words -/

theorem familyOf_wordXYN {f n : Nat} {x y : Reg} (hf : f < 16) (hn : n < 16) :
    familyOf (wordXYN f x y n) = BitVec.ofNat 4 f := by
  apply BitVec.eq_of_toNat_eq
  rw [toNat_familyOf, toNat_wordXYN hf hn, BitVec.toNat_ofNat]
  omega

theorem familyOf_wordXNN {f n : Nat} {x : Reg} (hf : f < 16) (hn : n < 256) :
    familyOf (wordXNN f x n) = BitVec.ofNat 4 f := by
  apply BitVec.eq_of_toNat_eq
  rw [toNat_familyOf, toNat_wordXNN hf hn, BitVec.toNat_ofNat]
  omega

theorem familyOf_wordNNN {f : Nat} {nnn : BitVec 12} (hf : f < 16) :
    familyOf (wordNNN f nnn) = BitVec.ofNat 4 f := by
  apply BitVec.eq_of_toNat_eq
  rw [toNat_familyOf, toNat_wordNNN hf, BitVec.toNat_ofNat]
  omega

theorem fieldX_wordXYN {f n : Nat} {x y : Reg} (hf : f < 16) (hn : n < 16) : fieldX (wordXYN f x y n) = x := by
  apply Fin.ext
  rw [val_fieldX, toNat_wordXYN hf hn]
  omega

theorem fieldY_wordXYN {f n : Nat} {x y : Reg} (hf : f < 16) (hn : n < 16) : fieldY (wordXYN f x y n) = y := by
  apply Fin.ext
  rw [val_fieldY, toNat_wordXYN hf hn]
  omega

theorem fieldN_wordXYN {f n : Nat} {x y : Reg} (hf : f < 16) (hn : n < 16) :
    fieldN (wordXYN f x y n) = BitVec.ofNat 4 n := by
  apply BitVec.eq_of_toNat_eq
  rw [toNat_fieldN, toNat_wordXYN hf hn, BitVec.toNat_ofNat]
  omega

theorem fieldX_wordXNN {f n : Nat} {x : Reg} (hf : f < 16) (hn : n < 256) : fieldX (wordXNN f x n) = x := by
  apply Fin.ext
  rw [val_fieldX, toNat_wordXNN hf hn]
  omega

theorem fieldNN_wordXNN {f n : Nat} {x : Reg} (hf : f < 16) (hn : n < 256) :
    fieldNN (wordXNN f x n) = BitVec.ofNat 8 n := by
  apply BitVec.eq_of_toNat_eq
  rw [toNat_fieldNN, toNat_wordXNN hf hn, BitVec.toNat_ofNat]
  omega

theorem fieldNNN_wordNNN {f : Nat} {nnn : BitVec 12} (hf : f < 16) : fieldNNN (wordNNN f nnn) = nnn := by
  apply BitVec.eq_of_toNat_eq
  rw [toNat_fieldNNN, toNat_wordNNN hf]
  omega

/-! ### Fields of a masked word (spec/opcode_table.json's match and mask) -/

theorem familyOf_and (w m : Word) : familyOf (w &&& m) = familyOf w &&& familyOf m := BitVec.extractLsb'_and

theorem fieldN_and (w m : Word) : fieldN (w &&& m) = fieldN w &&& fieldN m := BitVec.extractLsb'_and

theorem fieldNN_and (w m : Word) : fieldNN (w &&& m) = fieldNN w &&& fieldNN m := BitVec.extractLsb'_and

/-- A word with the top nibble masked in has the pattern's family. -/
theorem familyOf_of_mask {w m p : Word} (hm : familyOf m = 0xF) (h : w &&& m = p) : familyOf w = familyOf p := by
  have := familyOf_and w m
  rw [h, hm] at this
  exact (this.trans BitVec.and_allOnes).symm

/-- A word with the low byte masked in has the pattern's NN. -/
theorem fieldNN_of_mask {w m p : Word} (hm : fieldNN m = 0xFF) (h : w &&& m = p) : fieldNN w = fieldNN p := by
  have := fieldNN_and w m
  rw [h, hm] at this
  exact (this.trans BitVec.and_allOnes).symm

/-- A word with the low nibble masked in has the pattern's N. -/
theorem fieldN_of_mask {w m p : Word} (hm : fieldN m = 0xF) (h : w &&& m = p) : fieldN w = fieldN p := by
  have := fieldN_and w m
  rw [h, hm] at this
  exact (this.trans BitVec.and_allOnes).symm

/-- The family the last arm of `decode` is for: 0xF. -/
theorem family_last : ∀ f : BitVec 4, (f = 0#4 → False) → (f = 1#4 → False) → (f = 2#4 → False) → (f = 3#4 → False) →
    (f = 4#4 → False) → (f = 5#4 → False) → (f = 6#4 → False) → (f = 7#4 → False) → (f = 8#4 → False) →
    (f = 9#4 → False) → (f = 10#4 → False) → (f = 11#4 → False) → (f = 12#4 → False) → (f = 13#4 → False) →
    (f = 14#4 → False) → f = 15#4 := by decide

/-! ### Bytes -/

/-- The two bytes of a word make the word again (20_memory.md R40). -/
@[simp] theorem wordOfBytes_high_low (w : Word) : wordOfBytes (highByte w) (lowByte w) = w := by
  apply BitVec.eq_of_toNat_eq
  simp [wordOfBytes, highByte, lowByte, BitVec.extractLsb'_toNat, Nat.shiftRight_eq_div_pow]
  omega

end Sys2Proof
end

