-- ==== Sys2Proof/Laws/State.lean ====
section
/-! SUPPORT. One lemma per field per update: what each of the state's operations leaves in each field. -/

namespace Sys2Proof.Machine.State

variable (s : State)

/-! ### setReg -/

@[simp] theorem setReg_cfg (x : Reg) (b : Byte) : (s.setReg x b).cfg = s.cfg := rfl
@[simp] theorem setReg_v (x : Reg) (b : Byte) : (s.setReg x b).v = s.v.set x.val b := rfl
@[simp] theorem setReg_pc (x : Reg) (b : Byte) : (s.setReg x b).pc = s.pc := rfl
@[simp] theorem setReg_i (x : Reg) (b : Byte) : (s.setReg x b).i = s.i := rfl
@[simp] theorem setReg_dt (x : Reg) (b : Byte) : (s.setReg x b).dt = s.dt := rfl
@[simp] theorem setReg_st (x : Reg) (b : Byte) : (s.setReg x b).st = s.st := rfl
@[simp] theorem setReg_sp (x : Reg) (b : Byte) : (s.setReg x b).sp = s.sp := rfl
@[simp] theorem setReg_stack (x : Reg) (b : Byte) : (s.setReg x b).stack = s.stack := rfl
@[simp] theorem setReg_mem (x : Reg) (b : Byte) : (s.setReg x b).mem = s.mem := rfl
@[simp] theorem setReg_disp (x : Reg) (b : Byte) : (s.setReg x b).disp = s.disp := rfl
@[simp] theorem setReg_keys (x : Reg) (b : Byte) : (s.setReg x b).keys = s.keys := rfl
@[simp] theorem setReg_fault (x : Reg) (b : Byte) : (s.setReg x b).fault = s.fault := rfl
@[simp] theorem setReg_faultAddr (x : Reg) (b : Byte) : (s.setReg x b).faultAddr = s.faultAddr := rfl
@[simp] theorem setReg_running (x : Reg) (b : Byte) : (s.setReg x b).running = s.running := rfl
@[simp] theorem setReg_diags (x : Reg) (b : Byte) : (s.setReg x b).diags = s.diags := rfl
@[simp] theorem setReg_draws (x : Reg) (b : Byte) : (s.setReg x b).draws = s.draws := rfl
@[simp] theorem setReg_agenda (x : Reg) (b : Byte) : (s.setReg x b).agenda = s.agenda := rfl

/-! ### setFlag -/

@[simp] theorem setFlag_cfg (b : Byte) : (s.setFlag b).cfg = s.cfg := rfl
@[simp] theorem setFlag_v (b : Byte) : (s.setFlag b).v = s.v.set vf.val b := rfl
@[simp] theorem setFlag_pc (b : Byte) : (s.setFlag b).pc = s.pc := rfl
@[simp] theorem setFlag_i (b : Byte) : (s.setFlag b).i = s.i := rfl
@[simp] theorem setFlag_dt (b : Byte) : (s.setFlag b).dt = s.dt := rfl
@[simp] theorem setFlag_st (b : Byte) : (s.setFlag b).st = s.st := rfl
@[simp] theorem setFlag_sp (b : Byte) : (s.setFlag b).sp = s.sp := rfl
@[simp] theorem setFlag_stack (b : Byte) : (s.setFlag b).stack = s.stack := rfl
@[simp] theorem setFlag_mem (b : Byte) : (s.setFlag b).mem = s.mem := rfl
@[simp] theorem setFlag_disp (b : Byte) : (s.setFlag b).disp = s.disp := rfl
@[simp] theorem setFlag_keys (b : Byte) : (s.setFlag b).keys = s.keys := rfl
@[simp] theorem setFlag_fault (b : Byte) : (s.setFlag b).fault = s.fault := rfl
@[simp] theorem setFlag_faultAddr (b : Byte) : (s.setFlag b).faultAddr = s.faultAddr := rfl
@[simp] theorem setFlag_running (b : Byte) : (s.setFlag b).running = s.running := rfl
@[simp] theorem setFlag_diags (b : Byte) : (s.setFlag b).diags = s.diags := rfl
@[simp] theorem setFlag_draws (b : Byte) : (s.setFlag b).draws = s.draws := rfl
@[simp] theorem setFlag_agenda (b : Byte) : (s.setFlag b).agenda = s.agenda := rfl

/-! ### setPc -/

@[simp] theorem setPc_cfg (a : Word) : (s.setPc a).cfg = s.cfg := rfl
@[simp] theorem setPc_v (a : Word) : (s.setPc a).v = s.v := rfl
@[simp] theorem setPc_pc (a : Word) : (s.setPc a).pc = a := rfl
@[simp] theorem setPc_i (a : Word) : (s.setPc a).i = s.i := rfl
@[simp] theorem setPc_dt (a : Word) : (s.setPc a).dt = s.dt := rfl
@[simp] theorem setPc_st (a : Word) : (s.setPc a).st = s.st := rfl
@[simp] theorem setPc_sp (a : Word) : (s.setPc a).sp = s.sp := rfl
@[simp] theorem setPc_stack (a : Word) : (s.setPc a).stack = s.stack := rfl
@[simp] theorem setPc_mem (a : Word) : (s.setPc a).mem = s.mem := rfl
@[simp] theorem setPc_disp (a : Word) : (s.setPc a).disp = s.disp := rfl
@[simp] theorem setPc_keys (a : Word) : (s.setPc a).keys = s.keys := rfl
@[simp] theorem setPc_fault (a : Word) : (s.setPc a).fault = s.fault := rfl
@[simp] theorem setPc_faultAddr (a : Word) : (s.setPc a).faultAddr = s.faultAddr := rfl
@[simp] theorem setPc_running (a : Word) : (s.setPc a).running = s.running := rfl
@[simp] theorem setPc_diags (a : Word) : (s.setPc a).diags = s.diags := rfl
@[simp] theorem setPc_draws (a : Word) : (s.setPc a).draws = s.draws := rfl
@[simp] theorem setPc_agenda (a : Word) : (s.setPc a).agenda = s.agenda := rfl

/-! ### setI -/

@[simp] theorem setI_cfg (a : Word) : (s.setI a).cfg = s.cfg := rfl
@[simp] theorem setI_v (a : Word) : (s.setI a).v = s.v := rfl
@[simp] theorem setI_pc (a : Word) : (s.setI a).pc = s.pc := rfl
@[simp] theorem setI_i (a : Word) : (s.setI a).i = a := rfl
@[simp] theorem setI_dt (a : Word) : (s.setI a).dt = s.dt := rfl
@[simp] theorem setI_st (a : Word) : (s.setI a).st = s.st := rfl
@[simp] theorem setI_sp (a : Word) : (s.setI a).sp = s.sp := rfl
@[simp] theorem setI_stack (a : Word) : (s.setI a).stack = s.stack := rfl
@[simp] theorem setI_mem (a : Word) : (s.setI a).mem = s.mem := rfl
@[simp] theorem setI_disp (a : Word) : (s.setI a).disp = s.disp := rfl
@[simp] theorem setI_keys (a : Word) : (s.setI a).keys = s.keys := rfl
@[simp] theorem setI_fault (a : Word) : (s.setI a).fault = s.fault := rfl
@[simp] theorem setI_faultAddr (a : Word) : (s.setI a).faultAddr = s.faultAddr := rfl
@[simp] theorem setI_running (a : Word) : (s.setI a).running = s.running := rfl
@[simp] theorem setI_diags (a : Word) : (s.setI a).diags = s.diags := rfl
@[simp] theorem setI_draws (a : Word) : (s.setI a).draws = s.draws := rfl
@[simp] theorem setI_agenda (a : Word) : (s.setI a).agenda = s.agenda := rfl

/-! ### memWrite -/

@[simp] theorem memWrite_cfg (a : Word) (b : Byte) : (s.memWrite a b).cfg = s.cfg := rfl
@[simp] theorem memWrite_v (a : Word) (b : Byte) : (s.memWrite a b).v = s.v := rfl
@[simp] theorem memWrite_pc (a : Word) (b : Byte) : (s.memWrite a b).pc = s.pc := rfl
@[simp] theorem memWrite_i (a : Word) (b : Byte) : (s.memWrite a b).i = s.i := rfl
@[simp] theorem memWrite_dt (a : Word) (b : Byte) : (s.memWrite a b).dt = s.dt := rfl
@[simp] theorem memWrite_st (a : Word) (b : Byte) : (s.memWrite a b).st = s.st := rfl
@[simp] theorem memWrite_sp (a : Word) (b : Byte) : (s.memWrite a b).sp = s.sp := rfl
@[simp] theorem memWrite_stack (a : Word) (b : Byte) : (s.memWrite a b).stack = s.stack := rfl
@[simp] theorem memWrite_mem (a : Word) (b : Byte) : (s.memWrite a b).mem = Memory.write s.cfg s.mem (memAddr a) b := rfl
@[simp] theorem memWrite_disp (a : Word) (b : Byte) : (s.memWrite a b).disp = s.disp := rfl
@[simp] theorem memWrite_keys (a : Word) (b : Byte) : (s.memWrite a b).keys = s.keys := rfl
@[simp] theorem memWrite_fault (a : Word) (b : Byte) : (s.memWrite a b).fault = s.fault := rfl
@[simp] theorem memWrite_faultAddr (a : Word) (b : Byte) : (s.memWrite a b).faultAddr = s.faultAddr := rfl
@[simp] theorem memWrite_running (a : Word) (b : Byte) : (s.memWrite a b).running = s.running := rfl
@[simp] theorem memWrite_diags (a : Word) (b : Byte) : (s.memWrite a b).diags = s.diags := rfl
@[simp] theorem memWrite_draws (a : Word) (b : Byte) : (s.memWrite a b).draws = s.draws := rfl
@[simp] theorem memWrite_agenda (a : Word) (b : Byte) : (s.memWrite a b).agenda = s.agenda := rfl

/-! ### raiseControlFlowFault -/

@[simp] theorem raiseControlFlowFault_cfg (c : FlowCause) : (s.raiseControlFlowFault c).cfg = s.cfg := rfl
@[simp] theorem raiseControlFlowFault_v (c : FlowCause) : (s.raiseControlFlowFault c).v = s.v := rfl
@[simp] theorem raiseControlFlowFault_pc (c : FlowCause) : (s.raiseControlFlowFault c).pc = s.pc := rfl
@[simp] theorem raiseControlFlowFault_i (c : FlowCause) : (s.raiseControlFlowFault c).i = s.i := rfl
@[simp] theorem raiseControlFlowFault_dt (c : FlowCause) : (s.raiseControlFlowFault c).dt = s.dt := rfl
@[simp] theorem raiseControlFlowFault_st (c : FlowCause) : (s.raiseControlFlowFault c).st = s.st := rfl
@[simp] theorem raiseControlFlowFault_sp (c : FlowCause) : (s.raiseControlFlowFault c).sp = s.sp := rfl
@[simp] theorem raiseControlFlowFault_stack (c : FlowCause) : (s.raiseControlFlowFault c).stack = s.stack := rfl
@[simp] theorem raiseControlFlowFault_mem (c : FlowCause) : (s.raiseControlFlowFault c).mem = s.mem := rfl
@[simp] theorem raiseControlFlowFault_disp (c : FlowCause) : (s.raiseControlFlowFault c).disp = s.disp := rfl
@[simp] theorem raiseControlFlowFault_keys (c : FlowCause) : (s.raiseControlFlowFault c).keys = s.keys := rfl
@[simp] theorem raiseControlFlowFault_fault (c : FlowCause) : (s.raiseControlFlowFault c).fault = some c := rfl
@[simp] theorem raiseControlFlowFault_faultAddr (c : FlowCause) : (s.raiseControlFlowFault c).faultAddr = s.pc - 2 := rfl
@[simp] theorem raiseControlFlowFault_running (c : FlowCause) : (s.raiseControlFlowFault c).running = s.running := rfl
@[simp] theorem raiseControlFlowFault_diags (c : FlowCause) : (s.raiseControlFlowFault c).diags = s.diags := rfl
@[simp] theorem raiseControlFlowFault_draws (c : FlowCause) : (s.raiseControlFlowFault c).draws = s.draws := rfl
@[simp] theorem raiseControlFlowFault_agenda (c : FlowCause) : (s.raiseControlFlowFault c).agenda = s.agenda := rfl

/-! ### emitDiagnostic -/

@[simp] theorem emitDiagnostic_cfg (w : Word) : (s.emitDiagnostic w).cfg = s.cfg := rfl
@[simp] theorem emitDiagnostic_v (w : Word) : (s.emitDiagnostic w).v = s.v := rfl
@[simp] theorem emitDiagnostic_pc (w : Word) : (s.emitDiagnostic w).pc = s.pc := rfl
@[simp] theorem emitDiagnostic_i (w : Word) : (s.emitDiagnostic w).i = s.i := rfl
@[simp] theorem emitDiagnostic_dt (w : Word) : (s.emitDiagnostic w).dt = s.dt := rfl
@[simp] theorem emitDiagnostic_st (w : Word) : (s.emitDiagnostic w).st = s.st := rfl
@[simp] theorem emitDiagnostic_sp (w : Word) : (s.emitDiagnostic w).sp = s.sp := rfl
@[simp] theorem emitDiagnostic_stack (w : Word) : (s.emitDiagnostic w).stack = s.stack := rfl
@[simp] theorem emitDiagnostic_mem (w : Word) : (s.emitDiagnostic w).mem = s.mem := rfl
@[simp] theorem emitDiagnostic_disp (w : Word) : (s.emitDiagnostic w).disp = s.disp := rfl
@[simp] theorem emitDiagnostic_keys (w : Word) : (s.emitDiagnostic w).keys = s.keys := rfl
@[simp] theorem emitDiagnostic_fault (w : Word) : (s.emitDiagnostic w).fault = s.fault := rfl
@[simp] theorem emitDiagnostic_faultAddr (w : Word) : (s.emitDiagnostic w).faultAddr = s.faultAddr := rfl
@[simp] theorem emitDiagnostic_running (w : Word) : (s.emitDiagnostic w).running = s.running := rfl
@[simp] theorem emitDiagnostic_diags (w : Word) : (s.emitDiagnostic w).diags = ⟨s.pc - 2, w⟩ :: s.diags := rfl
@[simp] theorem emitDiagnostic_draws (w : Word) : (s.emitDiagnostic w).draws = s.draws := rfl
@[simp] theorem emitDiagnostic_agenda (w : Word) : (s.emitDiagnostic w).agenda = s.agenda := rfl

/-! ### countDraw -/

@[simp] theorem countDraw_cfg : (s.countDraw).cfg = s.cfg := rfl
@[simp] theorem countDraw_v : (s.countDraw).v = s.v := rfl
@[simp] theorem countDraw_pc : (s.countDraw).pc = s.pc := rfl
@[simp] theorem countDraw_i : (s.countDraw).i = s.i := rfl
@[simp] theorem countDraw_dt : (s.countDraw).dt = s.dt := rfl
@[simp] theorem countDraw_st : (s.countDraw).st = s.st := rfl
@[simp] theorem countDraw_sp : (s.countDraw).sp = s.sp := rfl
@[simp] theorem countDraw_stack : (s.countDraw).stack = s.stack := rfl
@[simp] theorem countDraw_mem : (s.countDraw).mem = s.mem := rfl
@[simp] theorem countDraw_disp : (s.countDraw).disp = s.disp := rfl
@[simp] theorem countDraw_keys : (s.countDraw).keys = s.keys := rfl
@[simp] theorem countDraw_fault : (s.countDraw).fault = s.fault := rfl
@[simp] theorem countDraw_faultAddr : (s.countDraw).faultAddr = s.faultAddr := rfl
@[simp] theorem countDraw_running : (s.countDraw).running = s.running := rfl
@[simp] theorem countDraw_diags : (s.countDraw).diags = s.diags := rfl
@[simp] theorem countDraw_draws : (s.countDraw).draws = s.draws + 1 := rfl
@[simp] theorem countDraw_agenda : (s.countDraw).agenda = s.agenda := rfl

/-! ### clearDisplay -/

@[simp] theorem clearDisplay_cfg : (s.clearDisplay).cfg = s.cfg := rfl
@[simp] theorem clearDisplay_v : (s.clearDisplay).v = s.v := rfl
@[simp] theorem clearDisplay_pc : (s.clearDisplay).pc = s.pc := rfl
@[simp] theorem clearDisplay_i : (s.clearDisplay).i = s.i := rfl
@[simp] theorem clearDisplay_dt : (s.clearDisplay).dt = s.dt := rfl
@[simp] theorem clearDisplay_st : (s.clearDisplay).st = s.st := rfl
@[simp] theorem clearDisplay_sp : (s.clearDisplay).sp = s.sp := rfl
@[simp] theorem clearDisplay_stack : (s.clearDisplay).stack = s.stack := rfl
@[simp] theorem clearDisplay_mem : (s.clearDisplay).mem = s.mem := rfl
@[simp] theorem clearDisplay_disp : (s.clearDisplay).disp = Vector.replicate 32 0 := rfl
@[simp] theorem clearDisplay_keys : (s.clearDisplay).keys = s.keys := rfl
@[simp] theorem clearDisplay_fault : (s.clearDisplay).fault = s.fault := rfl
@[simp] theorem clearDisplay_faultAddr : (s.clearDisplay).faultAddr = s.faultAddr := rfl
@[simp] theorem clearDisplay_running : (s.clearDisplay).running = s.running := rfl
@[simp] theorem clearDisplay_diags : (s.clearDisplay).diags = s.diags := rfl
@[simp] theorem clearDisplay_draws : (s.clearDisplay).draws = s.draws := rfl
@[simp] theorem clearDisplay_agenda : (s.clearDisplay).agenda = s.agenda := rfl

/-! ### flipPixel -/

@[simp] theorem flipPixel_cfg (x : Fin 64) (y : Fin 32) : (s.flipPixel x y).cfg = s.cfg := rfl
@[simp] theorem flipPixel_v (x : Fin 64) (y : Fin 32) : (s.flipPixel x y).v = s.v := rfl
@[simp] theorem flipPixel_pc (x : Fin 64) (y : Fin 32) : (s.flipPixel x y).pc = s.pc := rfl
@[simp] theorem flipPixel_i (x : Fin 64) (y : Fin 32) : (s.flipPixel x y).i = s.i := rfl
@[simp] theorem flipPixel_dt (x : Fin 64) (y : Fin 32) : (s.flipPixel x y).dt = s.dt := rfl
@[simp] theorem flipPixel_st (x : Fin 64) (y : Fin 32) : (s.flipPixel x y).st = s.st := rfl
@[simp] theorem flipPixel_sp (x : Fin 64) (y : Fin 32) : (s.flipPixel x y).sp = s.sp := rfl
@[simp] theorem flipPixel_stack (x : Fin 64) (y : Fin 32) : (s.flipPixel x y).stack = s.stack := rfl
@[simp] theorem flipPixel_mem (x : Fin 64) (y : Fin 32) : (s.flipPixel x y).mem = s.mem := rfl
@[simp] theorem flipPixel_disp (x : Fin 64) (y : Fin 32) : (s.flipPixel x y).disp = s.disp.set y.val (s.disp[y.val] ^^^ (1#64 <<< (63 - x.val))) := rfl
@[simp] theorem flipPixel_keys (x : Fin 64) (y : Fin 32) : (s.flipPixel x y).keys = s.keys := rfl
@[simp] theorem flipPixel_fault (x : Fin 64) (y : Fin 32) : (s.flipPixel x y).fault = s.fault := rfl
@[simp] theorem flipPixel_faultAddr (x : Fin 64) (y : Fin 32) : (s.flipPixel x y).faultAddr = s.faultAddr := rfl
@[simp] theorem flipPixel_running (x : Fin 64) (y : Fin 32) : (s.flipPixel x y).running = s.running := rfl
@[simp] theorem flipPixel_diags (x : Fin 64) (y : Fin 32) : (s.flipPixel x y).diags = s.diags := rfl
@[simp] theorem flipPixel_draws (x : Fin 64) (y : Fin 32) : (s.flipPixel x y).draws = s.draws := rfl
@[simp] theorem flipPixel_agenda (x : Fin 64) (y : Fin 32) : (s.flipPixel x y).agenda = s.agenda := rfl

/-! ### advancePc -/

@[simp] theorem advancePc_cfg : (s.advancePc).cfg = s.cfg := rfl
@[simp] theorem advancePc_v : (s.advancePc).v = s.v := rfl
@[simp] theorem advancePc_pc : (s.advancePc).pc = s.pc + 2 := rfl
@[simp] theorem advancePc_i : (s.advancePc).i = s.i := rfl
@[simp] theorem advancePc_dt : (s.advancePc).dt = s.dt := rfl
@[simp] theorem advancePc_st : (s.advancePc).st = s.st := rfl
@[simp] theorem advancePc_sp : (s.advancePc).sp = s.sp := rfl
@[simp] theorem advancePc_stack : (s.advancePc).stack = s.stack := rfl
@[simp] theorem advancePc_mem : (s.advancePc).mem = s.mem := rfl
@[simp] theorem advancePc_disp : (s.advancePc).disp = s.disp := rfl
@[simp] theorem advancePc_keys : (s.advancePc).keys = s.keys := rfl
@[simp] theorem advancePc_fault : (s.advancePc).fault = s.fault := rfl
@[simp] theorem advancePc_faultAddr : (s.advancePc).faultAddr = s.faultAddr := rfl
@[simp] theorem advancePc_running : (s.advancePc).running = s.running := rfl
@[simp] theorem advancePc_diags : (s.advancePc).diags = s.diags := rfl
@[simp] theorem advancePc_draws : (s.advancePc).draws = s.draws := rfl
@[simp] theorem advancePc_agenda : (s.advancePc).agenda = s.agenda := rfl

/-! ### Registers -/

/-- A register read after a register write. -/
@[simp] theorem reg_setReg (x y : Reg) (b : Byte) : (s.setReg x b).reg y = if y = x then b else s.reg y := by
  by_cases h : y = x
  · subst h; simp [reg, setReg]
  · have : x.val ≠ y.val := fun e => h (Fin.ext e.symm)
    simp [reg, setReg, h, Vector.getElem_set_ne _ _ this]

@[simp] theorem reg_setFlag (y : Reg) (b : Byte) : (s.setFlag b).reg y = if y = vf then b else s.reg y :=
  reg_setReg s vf y b

@[simp] theorem reg_setPc (r : Reg) (a : Word) : (s.setPc a).reg r = s.reg r := rfl
@[simp] theorem reg_setI (r : Reg) (a : Word) : (s.setI a).reg r = s.reg r := rfl
@[simp] theorem reg_memWrite (r : Reg) (a : Word) (b : Byte) : (s.memWrite a b).reg r = s.reg r := rfl
@[simp] theorem reg_raiseControlFlowFault (r : Reg) (c : FlowCause) : (s.raiseControlFlowFault c).reg r = s.reg r := rfl
@[simp] theorem reg_emitDiagnostic (r : Reg) (w : Word) : (s.emitDiagnostic w).reg r = s.reg r := rfl
@[simp] theorem reg_countDraw (r : Reg) : (s.countDraw).reg r = s.reg r := rfl
@[simp] theorem reg_clearDisplay (r : Reg) : (s.clearDisplay).reg r = s.reg r := rfl
@[simp] theorem reg_flipPixel (r : Reg) (x : Fin 64) (y : Fin 32) : (s.flipPixel x y).reg r = s.reg r := rfl
@[simp] theorem reg_advancePc (r : Reg) : (s.advancePc).reg r = s.reg r := rfl

/-! ### Memory -/

@[simp] theorem memRead_setReg (c : Word) (x : Reg) (b : Byte) : (s.setReg x b).memRead c = s.memRead c := rfl
@[simp] theorem memRead_setFlag (c : Word) (b : Byte) : (s.setFlag b).memRead c = s.memRead c := rfl
@[simp] theorem memRead_setPc (c : Word) (a : Word) : (s.setPc a).memRead c = s.memRead c := rfl
@[simp] theorem memRead_setI (c : Word) (a : Word) : (s.setI a).memRead c = s.memRead c := rfl
@[simp] theorem memRead_raiseControlFlowFault (d : Word) (c : FlowCause) : (s.raiseControlFlowFault c).memRead d = s.memRead d := rfl
@[simp] theorem memRead_emitDiagnostic (c : Word) (w : Word) : (s.emitDiagnostic w).memRead c = s.memRead c := rfl
@[simp] theorem memRead_countDraw (c : Word) : (s.countDraw).memRead c = s.memRead c := rfl
@[simp] theorem memRead_clearDisplay (c : Word) : (s.clearDisplay).memRead c = s.memRead c := rfl
@[simp] theorem memRead_flipPixel (c : Word) (x : Fin 64) (y : Fin 32) : (s.flipPixel x y).memRead c = s.memRead c := rfl
@[simp] theorem memRead_advancePc (c : Word) : (s.advancePc).memRead c = s.memRead c := rfl

/-- A memory read after a memory write: two addresses name one byte when they agree mod 4096 (20_memory.md R38). -/
@[simp] theorem memRead_memWrite (a c : Word) (b : Byte) :
    (s.memWrite a b).memRead c = if memAddr a = memAddr c then b else s.memRead c := by
  simp [memRead, memWrite]

end Sys2Proof.Machine.State
end

