-- ==== Sys2Proof/Laws/Ops.lean ====
section
/-! SUPPORT. What each shared operation can do, said once. -/

namespace Sys2Proof.Machine

theorem memAddr_lt (a : Word) : memAddr a < 4096 := Nat.mod_lt _ (by decide)

theorem mem_blockRegs {x k : Reg} : k ∈ blockRegs x ↔ k ≤ x := by
  simp [blockRegs, List.mem_finRange]

theorem nodup_blockRegs (x : Reg) : (blockRegs x).Nodup := (List.nodup_finRange 16).filter _

/-- Two registers' cells of one block are distinct: 16 < 4096. -/
theorem memAddr_indexed_inj {a : Word} {j k : Nat} (hj : j < 4096) (hk : k < 4096)
    (h : memAddr (indexed a j) = memAddr (indexed a k)) : j = k := by
  simp only [memAddr, indexed, BitVec.toNat_add, BitVec.toNat_ofNat] at h
  omega

theorem keyBit_eq (keys : Word) (k : Nat) : keyBit keys k = (decide (k < 16) && keys.toNat.testBit k) := by
  by_cases h : k < 16
  · simp [keyBit, h, BitVec.testBit_toNat]
  · simp [keyBit, h, BitVec.getLsbD_of_ge keys k (by omega)]

@[simp] theorem toNat_flagByte (c : Bool) : (flagByte c).toNat = if c then 1 else 0 := by
  cases c <;> rfl

namespace State

variable (s : State)

/-! ### Skips -/

/-- A skip adds 2 to PC when its condition holds and does nothing else. -/
theorem skipIf_eq (c : Bool) : s.skipIf c = s.setPc (if c then s.pc + 2 else s.pc) := by
  cases c <;> rfl

/-! ### The call stack -/

/-- Push succeeds exactly when SP is below 16. -/
theorem push_ok (a : Word) (h : s.sp.val < 16) :
    s.push a = .ok { s with stack := s.stack.set s.sp.val a, sp := ⟨s.sp.val + 1, Nat.succ_lt_succ h⟩ } :=
  dif_pos h

theorem push_full (a : Word) (h : ¬ s.sp.val < 16) : s.push a = .error .stackOverflow := dif_neg h

/-- Pop succeeds exactly when SP is not 0, and leaves the entries alone. -/
theorem pop_ok (h : ¬ s.sp.val = 0) :
    s.pop = .ok (s.stack[s.sp.val - 1]'(by omega), { s with sp := ⟨s.sp.val - 1, by omega⟩ }) := dif_neg h

theorem pop_empty (h : s.sp.val = 0) : s.pop = .error .stackUnderflow := dif_pos h

/-! ### Block stores and loads -/

/-- A block store writes memory only. -/
theorem storeBlock_eq (rs : List Reg) : s.storeBlock rs = { s with mem := (s.storeBlock rs).mem } := by
  induction rs generalizing s with
  | nil => rfl
  | cons k rs ih => exact ih (s.memWrite (indexed s.i k.val) (s.reg k))

@[simp] theorem storeBlock_cfg (rs : List Reg) : (s.storeBlock rs).cfg = s.cfg := by rw [storeBlock_eq]
@[simp] theorem storeBlock_v (rs : List Reg) : (s.storeBlock rs).v = s.v := by rw [storeBlock_eq]
@[simp] theorem storeBlock_pc (rs : List Reg) : (s.storeBlock rs).pc = s.pc := by rw [storeBlock_eq]
@[simp] theorem storeBlock_i (rs : List Reg) : (s.storeBlock rs).i = s.i := by rw [storeBlock_eq]
@[simp] theorem storeBlock_dt (rs : List Reg) : (s.storeBlock rs).dt = s.dt := by rw [storeBlock_eq]
@[simp] theorem storeBlock_st (rs : List Reg) : (s.storeBlock rs).st = s.st := by rw [storeBlock_eq]
@[simp] theorem storeBlock_sp (rs : List Reg) : (s.storeBlock rs).sp = s.sp := by rw [storeBlock_eq]
@[simp] theorem storeBlock_stack (rs : List Reg) : (s.storeBlock rs).stack = s.stack := by rw [storeBlock_eq]
@[simp] theorem storeBlock_disp (rs : List Reg) : (s.storeBlock rs).disp = s.disp := by rw [storeBlock_eq]
@[simp] theorem storeBlock_keys (rs : List Reg) : (s.storeBlock rs).keys = s.keys := by rw [storeBlock_eq]
@[simp] theorem storeBlock_fault (rs : List Reg) : (s.storeBlock rs).fault = s.fault := by rw [storeBlock_eq]
@[simp] theorem storeBlock_faultAddr (rs : List Reg) : (s.storeBlock rs).faultAddr = s.faultAddr := by rw [storeBlock_eq]
@[simp] theorem storeBlock_running (rs : List Reg) : (s.storeBlock rs).running = s.running := by rw [storeBlock_eq]
@[simp] theorem storeBlock_diags (rs : List Reg) : (s.storeBlock rs).diags = s.diags := by rw [storeBlock_eq]
@[simp] theorem storeBlock_draws (rs : List Reg) : (s.storeBlock rs).draws = s.draws := by rw [storeBlock_eq]
@[simp] theorem storeBlock_agenda (rs : List Reg) : (s.storeBlock rs).agenda = s.agenda := by rw [storeBlock_eq]

@[simp] theorem reg_storeBlock (rs : List Reg) (r : Reg) : (s.storeBlock rs).reg r = s.reg r := by
  simp [reg]

/-- A byte after a block store, if no register of the list is stored there. -/
theorem memRead_storeBlock_other {rs : List Reg} {c : Word} (h : ∀ k ∈ rs, memAddr (indexed s.i k.val) ≠ memAddr c) :
    (s.storeBlock rs).memRead c = s.memRead c := by
  induction rs generalizing s with
  | nil => rfl
  | cons k rs ih =>
    refine (ih (s.memWrite (indexed s.i k.val) (s.reg k)) fun j hj => h j (by simp [hj])).trans ?_
    simp [h k (by simp)]

/-- A byte after a block store, at the cell of a register of the list. -/
theorem memRead_storeBlock_same {rs : List Reg} {k : Reg} (hn : rs.Nodup) (hk : k ∈ rs) :
    (s.storeBlock rs).memRead (indexed s.i k.val) = s.reg k := by
  induction rs generalizing s with
  | nil => simp at hk
  | cons j rs ih =>
    have ⟨hj, hn'⟩ := List.nodup_cons.1 hn
    rcases List.mem_cons.1 hk with rfl | hk
    · refine (memRead_storeBlock_other (s.memWrite (indexed s.i k.val) (s.reg k)) fun l hl e => ?_).trans (by simp)
      have := memAddr_indexed_inj (by omega) (by omega) e
      exact hj (by rwa [← Fin.ext this])
    · exact ih (s.memWrite (indexed s.i j.val) (s.reg j)) hn' hk

/-- A block store keeps the canonical form. -/
theorem wf_storeBlock (rs : List Reg) (h : Memory.wf s.cfg s.mem) :
    Memory.wf (s.storeBlock rs).cfg (s.storeBlock rs).mem := by
  induction rs generalizing s with
  | nil => exact h
  | cons k rs ih => exact ih (s.memWrite _ _) (Memory.wf_write h (memAddr_lt _))

/-- A block load writes registers only. -/
theorem loadBlock_eq (rs : List Reg) : s.loadBlock rs = { s with v := (s.loadBlock rs).v } := by
  induction rs generalizing s with
  | nil => rfl
  | cons k rs ih => exact ih (s.setReg k (s.memRead (indexed s.i k.val)))

@[simp] theorem loadBlock_cfg (rs : List Reg) : (s.loadBlock rs).cfg = s.cfg := by rw [loadBlock_eq]
@[simp] theorem loadBlock_pc (rs : List Reg) : (s.loadBlock rs).pc = s.pc := by rw [loadBlock_eq]
@[simp] theorem loadBlock_i (rs : List Reg) : (s.loadBlock rs).i = s.i := by rw [loadBlock_eq]
@[simp] theorem loadBlock_dt (rs : List Reg) : (s.loadBlock rs).dt = s.dt := by rw [loadBlock_eq]
@[simp] theorem loadBlock_st (rs : List Reg) : (s.loadBlock rs).st = s.st := by rw [loadBlock_eq]
@[simp] theorem loadBlock_sp (rs : List Reg) : (s.loadBlock rs).sp = s.sp := by rw [loadBlock_eq]
@[simp] theorem loadBlock_stack (rs : List Reg) : (s.loadBlock rs).stack = s.stack := by rw [loadBlock_eq]
@[simp] theorem loadBlock_mem (rs : List Reg) : (s.loadBlock rs).mem = s.mem := by rw [loadBlock_eq]
@[simp] theorem loadBlock_disp (rs : List Reg) : (s.loadBlock rs).disp = s.disp := by rw [loadBlock_eq]
@[simp] theorem loadBlock_keys (rs : List Reg) : (s.loadBlock rs).keys = s.keys := by rw [loadBlock_eq]
@[simp] theorem loadBlock_fault (rs : List Reg) : (s.loadBlock rs).fault = s.fault := by rw [loadBlock_eq]
@[simp] theorem loadBlock_faultAddr (rs : List Reg) : (s.loadBlock rs).faultAddr = s.faultAddr := by rw [loadBlock_eq]
@[simp] theorem loadBlock_running (rs : List Reg) : (s.loadBlock rs).running = s.running := by rw [loadBlock_eq]
@[simp] theorem loadBlock_diags (rs : List Reg) : (s.loadBlock rs).diags = s.diags := by rw [loadBlock_eq]
@[simp] theorem loadBlock_draws (rs : List Reg) : (s.loadBlock rs).draws = s.draws := by rw [loadBlock_eq]
@[simp] theorem loadBlock_agenda (rs : List Reg) : (s.loadBlock rs).agenda = s.agenda := by rw [loadBlock_eq]

@[simp] theorem memRead_loadBlock (rs : List Reg) (a : Word) : (s.loadBlock rs).memRead a = s.memRead a := by
  simp [memRead]

/-- A register after a block load: the byte at its cell if the list names it, and its old value if not. -/
theorem reg_loadBlock (rs : List Reg) (r : Reg) :
    (s.loadBlock rs).reg r = if r ∈ rs then s.memRead (indexed s.i r.val) else s.reg r := by
  induction rs generalizing s with
  | nil => rfl
  | cons k rs ih =>
    refine (ih (s.setReg k (s.memRead (indexed s.i k.val)))).trans ?_
    by_cases hr : r ∈ rs
    · simp [hr]
    · by_cases hk : r = k
      · subst hk; simp [hr]
      · simp [hr, hk]

/-! ### The display -/

/-- A pixel after one pixel flips. -/
theorem pixel_flipPixel (x x' : Fin 64) (y y' : Fin 32) :
    (s.flipPixel x y).pixel x' y' = (s.pixel x' y' ^^ decide (x' = x ∧ y' = y)) := by
  have hbit : (1#64 <<< (63 - x.val)).getLsbD (63 - x'.val) = decide (x' = x) := by
    have hx := x.isLt
    have hx' := x'.isLt
    rw [BitVec.getLsbD_shiftLeft, BitVec.getLsbD_one]
    rw [Bool.eq_iff_iff]
    simp [Fin.ext_iff]
    omega
  by_cases hy : y' = y
  · subst hy
    simp [pixel, hbit]
  · have : y.val ≠ y'.val := fun e => hy (Fin.ext e.symm)
    simp [pixel, hy, Vector.getElem_set_ne _ _ this]

/-- One sprite bit flips its pixel. -/
theorem pixel_blitPixel (p : Fin 64 × Fin 32) (x : Fin 64) (y : Fin 32) :
    (s.blitPixel p).pixel x y = (s.pixel x y ^^ decide (x = p.1 ∧ y = p.2)) := by
  unfold blitPixel
  split <;> exact pixel_flipPixel _ _ _ _ _

/-- One sprite bit sets VF if its pixel was lit. -/
theorem reg_blitPixel (p : Fin 64 × Fin 32) (r : Reg) :
    (s.blitPixel p).reg r = if r = vf ∧ s.pixel p.1 p.2 = true then 1 else s.reg r := by
  unfold blitPixel
  by_cases h : s.pixel p.1 p.2 = true <;> simp [h]

/-- One sprite bit writes V and DISP only. -/
theorem blitPixel_eq (p : Fin 64 × Fin 32) :
    s.blitPixel p = { s with v := (s.blitPixel p).v, disp := (s.blitPixel p).disp } := by
  unfold blitPixel
  split <;> rfl

theorem foldl_blitPixel_eq (ps : List (Fin 64 × Fin 32)) :
    ps.foldl blitPixel s = { s with v := (ps.foldl blitPixel s).v, disp := (ps.foldl blitPixel s).disp } := by
  induction ps generalizing s with
  | nil => rfl
  | cons p ps ih =>
    rw [List.foldl_cons, ih, blitPixel_eq s p]

theorem foldl_blitRow_eq (x0 y0 : Nat) (rs : List Nat) :
    rs.foldl (blitRow x0 y0) s =
      { s with v := (rs.foldl (blitRow x0 y0) s).v, disp := (rs.foldl (blitRow x0 y0) s).disp } := by
  induction rs generalizing s with
  | nil => rfl
  | cons r rs ih =>
    rw [List.foldl_cons, ih, blitRow, foldl_blitPixel_eq s]

/-- Drawing writes V and DISP only. -/
theorem drawSprite_eq (x0 y0 n : Nat) :
    s.drawSprite x0 y0 n = { s with v := (s.drawSprite x0 y0 n).v, disp := (s.drawSprite x0 y0 n).disp } := by
  rw [drawSprite, foldl_blitRow_eq]
  rfl

@[simp] theorem drawSprite_cfg (x0 y0 n : Nat) : (s.drawSprite x0 y0 n).cfg = s.cfg := by rw [drawSprite_eq]
@[simp] theorem drawSprite_pc (x0 y0 n : Nat) : (s.drawSprite x0 y0 n).pc = s.pc := by rw [drawSprite_eq]
@[simp] theorem drawSprite_i (x0 y0 n : Nat) : (s.drawSprite x0 y0 n).i = s.i := by rw [drawSprite_eq]
@[simp] theorem drawSprite_dt (x0 y0 n : Nat) : (s.drawSprite x0 y0 n).dt = s.dt := by rw [drawSprite_eq]
@[simp] theorem drawSprite_st (x0 y0 n : Nat) : (s.drawSprite x0 y0 n).st = s.st := by rw [drawSprite_eq]
@[simp] theorem drawSprite_sp (x0 y0 n : Nat) : (s.drawSprite x0 y0 n).sp = s.sp := by rw [drawSprite_eq]
@[simp] theorem drawSprite_stack (x0 y0 n : Nat) : (s.drawSprite x0 y0 n).stack = s.stack := by rw [drawSprite_eq]
@[simp] theorem drawSprite_mem (x0 y0 n : Nat) : (s.drawSprite x0 y0 n).mem = s.mem := by rw [drawSprite_eq]
@[simp] theorem drawSprite_keys (x0 y0 n : Nat) : (s.drawSprite x0 y0 n).keys = s.keys := by rw [drawSprite_eq]
@[simp] theorem drawSprite_fault (x0 y0 n : Nat) : (s.drawSprite x0 y0 n).fault = s.fault := by rw [drawSprite_eq]
@[simp] theorem drawSprite_faultAddr (x0 y0 n : Nat) : (s.drawSprite x0 y0 n).faultAddr = s.faultAddr := by rw [drawSprite_eq]
@[simp] theorem drawSprite_running (x0 y0 n : Nat) : (s.drawSprite x0 y0 n).running = s.running := by rw [drawSprite_eq]
@[simp] theorem drawSprite_diags (x0 y0 n : Nat) : (s.drawSprite x0 y0 n).diags = s.diags := by rw [drawSprite_eq]
@[simp] theorem drawSprite_draws (x0 y0 n : Nat) : (s.drawSprite x0 y0 n).draws = s.draws := by rw [drawSprite_eq]
@[simp] theorem drawSprite_agenda (x0 y0 n : Nat) : (s.drawSprite x0 y0 n).agenda = s.agenda := by rw [drawSprite_eq]

@[simp] theorem memRead_drawSprite (x0 y0 n : Nat) (a : Word) : (s.drawSprite x0 y0 n).memRead a = s.memRead a := by
  simp [memRead]

/-- All the pixels a sprite toggles, in order. -/
def spritePixels (x0 y0 n : Nat) : List (Fin 64 × Fin 32) :=
  (List.range n).flatMap (fun r => rowPixels s.cfg.spriteEdge x0 y0 r (s.memRead (indexed s.i r)))

/-- Drawing is clearing VF and toggling the sprite's pixels one by one. -/
theorem drawSprite_pixels (x0 y0 n : Nat) :
    s.drawSprite x0 y0 n = (s.spritePixels x0 y0 n).foldl blitPixel (s.setFlag 0) := by
  have key : ∀ (rs : List Nat) (t : State), t.cfg = s.cfg → t.mem = s.mem → t.i = s.i →
      rs.foldl (blitRow x0 y0) t =
        (rs.flatMap (fun r => rowPixels s.cfg.spriteEdge x0 y0 r (s.memRead (indexed s.i r)))).foldl blitPixel t := by
    intro rs
    induction rs with
    | nil => intros; rfl
    | cons r rs ih =>
      intro t hc hm hi
      have hrow : blitRow x0 y0 t r =
          (rowPixels s.cfg.spriteEdge x0 y0 r (s.memRead (indexed s.i r))).foldl blitPixel t := by
        simp only [blitRow, memRead, hc, hm, hi]
      rw [List.foldl_cons, List.flatMap_cons, List.foldl_append, hrow]
      refine ih _ ?_ ?_ ?_ <;> rw [foldl_blitPixel_eq] <;> assumption
  exact key _ _ rfl rfl rfl

/-- A pixel after a list of distinct pixels is toggled: flipped exactly if it is in the list. -/
theorem pixel_foldl_blitPixel {ps : List (Fin 64 × Fin 32)} (hn : ps.Nodup) (x : Fin 64) (y : Fin 32) :
    (ps.foldl blitPixel s).pixel x y = (s.pixel x y ^^ decide ((x, y) ∈ ps)) := by
  induction ps generalizing s with
  | nil => simp
  | cons p ps ih =>
    have ⟨hp, hn'⟩ := List.nodup_cons.1 hn
    rw [List.foldl_cons, ih _ hn', pixel_blitPixel]
    by_cases h : (x, y) = p
    · subst h; simp [hp]
    · have h' : ¬ (x = p.1 ∧ y = p.2) := fun e => h (Prod.ext e.1 e.2)
      simp [h, h']

/-- VF after a list of distinct pixels is toggled: 1 if one of them was lit, else as before. -/
theorem reg_foldl_blitPixel {ps : List (Fin 64 × Fin 32)} (hn : ps.Nodup) (r : Reg) :
    (ps.foldl blitPixel s).reg r = if r = vf ∧ ∃ p ∈ ps, s.pixel p.1 p.2 = true then 1 else s.reg r := by
  induction ps generalizing s with
  | nil => simp
  | cons p ps ih =>
    have ⟨hp, hn'⟩ := List.nodup_cons.1 hn
    have hsame : ∀ q ∈ ps, (s.blitPixel p).pixel q.1 q.2 = s.pixel q.1 q.2 := by
      intro q hq
      have : ¬ (q.1 = p.1 ∧ q.2 = p.2) := fun e => hp (Prod.ext e.1 e.2 ▸ hq)
      simp [pixel_blitPixel, this]
    have hiff : (∃ q ∈ ps, (s.blitPixel p).pixel q.1 q.2 = true) ↔ ∃ q ∈ ps, s.pixel q.1 q.2 = true :=
      exists_congr fun q => and_congr_right fun hq => by rw [hsame q hq]
    rw [List.foldl_cons, ih _ hn', reg_blitPixel]
    simp only [hiff, List.mem_cons, exists_eq_or_imp]
    by_cases hr : r = vf <;> by_cases h1 : s.pixel p.1 p.2 = true <;>
      by_cases h2 : ∃ q ∈ ps, s.pixel q.1 q.2 = true <;> simp [hr, h1, h2]

/-- The pixels of a sprite: those of the rows below `n` and the columns 0 to 7 whose sprite bit is 1. -/
theorem mem_spritePixels {x0 y0 n : Nat} {p : Fin 64 × Fin 32} :
    p ∈ s.spritePixels x0 y0 n ↔ ∃ r < n, ∃ c < 8,
      (s.memRead (indexed s.i r)).getLsbD (7 - c) = true ∧ spritePixel s.cfg.spriteEdge x0 y0 r c = some p := by
  simp [spritePixels, rowPixels, List.mem_flatMap]

end State

/-- Where `Clip` puts a sprite's pixel (44_display.md R108). -/
theorem spritePixel_clip {x0 y0 r c : Nat} {p : Fin 64 × Fin 32} :
    spritePixel .clip x0 y0 r c = some p ↔ p.1.val = x0 + c ∧ p.2.val = y0 + r := by
  have h1 := p.1.isLt
  have h2 := p.2.isLt
  by_cases h : x0 + c < 64 ∧ y0 + r < 32
  · simp only [spritePixel, h, and_self, dite_true, Option.some.injEq, Prod.ext_iff, Fin.ext_iff]
    omega
  · simp only [spritePixel, h, dite_false, reduceCtorEq, false_iff]
    omega

/-- Where `Wrap` puts a sprite's pixel (R109). -/
theorem spritePixel_wrap {x0 y0 r c : Nat} {p : Fin 64 × Fin 32} :
    spritePixel .wrap x0 y0 r c = some p ↔ p.1.val = (x0 + c) % 64 ∧ p.2.val = (y0 + r) % 32 := by
  simp only [spritePixel, Option.some.injEq, Prod.ext_iff, Fin.ext_iff, Fin.val_ofNat]
  omega

/-- A sprite never overlaps itself (R109): rows below 32 and columns below 8 fall on different pixels. -/
theorem spritePixel_inj {e : SpriteEdge} {x0 y0 r r' c c' : Nat} {p : Fin 64 × Fin 32}
    (hr : r < 16) (hr' : r' < 16) (hc : c < 8) (hc' : c' < 8)
    (h : spritePixel e x0 y0 r c = some p) (h' : spritePixel e x0 y0 r' c' = some p) : r = r' ∧ c = c' := by
  cases e with
  | clip => rw [spritePixel_clip] at h h'; omega
  | wrap => rw [spritePixel_wrap] at h h'; omega

theorem mem_rowPixels {e : SpriteEdge} {x0 y0 r : Nat} {b : Byte} {p : Fin 64 × Fin 32} :
    p ∈ rowPixels e x0 y0 r b ↔ ∃ c < 8, b.getLsbD (7 - c) = true ∧ spritePixel e x0 y0 r c = some p := by
  simp [rowPixels]

theorem nodup_rowPixels (e : SpriteEdge) (x0 y0 r : Nat) (b : Byte) (hr : r < 16) :
    (rowPixels e x0 y0 r b).Nodup := by
  refine List.pairwise_filterMap.2 (List.nodup_range.imp_of_mem fun hc hc' hne p h q h' hpq => ?_)
  subst hpq
  simp only [Option.ite_none_right_eq_some] at h h'
  exact hne (spritePixel_inj hr hr (List.mem_range.1 hc) (List.mem_range.1 hc') h.2 h'.2).2

theorem State.nodup_spritePixels (s : State) (x0 y0 n : Nat) (hn : n < 16) : (s.spritePixels x0 y0 n).Nodup := by
  refine List.nodup_flatMap.2 ⟨fun r hr => nodup_rowPixels _ _ _ _ _ ?_, ?_⟩
  · have := List.mem_range.1 hr; omega
  · refine List.nodup_range.imp_of_mem fun hr hr' hne p h h' => ?_
    obtain ⟨c, hc, -, h⟩ := mem_rowPixels.1 h
    obtain ⟨c', hc', -, h'⟩ := mem_rowPixels.1 h'
    have := List.mem_range.1 hr
    have := List.mem_range.1 hr'
    exact hne (spritePixel_inj (by omega) (by omega) hc hc' h h').1

end Sys2Proof.Machine
end

