-- ==== Sys2Proof/Laws/PerInstr.lean ====
section
/-! SUPPORT. Laws made per instruction: the family nibble of every instruction's word (30_encoding.md R58, R59). -/

namespace Sys2Proof.Laws.FamilyNibble

/-- The family of an instruction's row in the opcode map (R59); for an unrecognized word, its own. -/
def familyNibble : Instr → BitVec 4
  | .nop | .cls _ | .ret _ => 0x0
  | .jp _ => 0x1
  | .call _ => 0x2
  | .seImm _ _ => 0x3
  | .sneImm _ _ => 0x4
  | .seReg _ _ _ => 0x5
  | .ldImm _ _ => 0x6
  | .addImm _ _ => 0x7
  | .ldReg _ _ | .orReg _ _ | .andReg _ _ | .xorReg _ _ | .addReg _ _ | .subReg _ _ | .shr _ _ | .subn _ _ | .shl _ _ => 0x8
  | .sneReg _ _ _ => 0x9
  | .ldI _ => 0xA
  | .jpV0 _ => 0xB
  | .rnd _ _ => 0xC
  | .drw _ _ _ => 0xD
  | .skp _ | .sknp _ => 0xE
  | .ldVxDT _ | .wkey _ | .ldDT _ | .ldST _ | .addI _ | .ldF _ | .ldB _ | .storeRegs _ | .loadRegs _ => 0xF
  | .unrecognized w => familyOf w

/-- The word an instruction encodes to belongs to its row's family; an unrecognized one to a family that has such words. -/
def Statement (i : Instr) : Prop :=
  i.wellFormed = true → familyOf (encode i) = familyNibble i ∧
    ((∃ w, i = .unrecognized w) → familyNibble i = 0x0 ∨ familyNibble i = 0x8 ∨ familyNibble i = 0xE ∨ familyNibble i = 0xF)

/-- What the recognized instructions share: their word's family is enough. -/
theorem of_family {i : Instr} (h : familyOf (encode i) = familyNibble i) (hi : ∀ w, i ≠ .unrecognized w) : Statement i :=
  fun _ => ⟨h, fun ⟨w, hw⟩ => absurd hw (hi w)⟩

theorem nop : Statement .nop := of_family (by decide) (by simp)
theorem cls (x : Reg) : Statement (.cls x) := of_family (familyOf_wordXNN (by decide) (by decide)) (by simp)
theorem ret (x : Reg) : Statement (.ret x) := of_family (familyOf_wordXNN (by decide) (by decide)) (by simp)
theorem jp (nnn : BitVec 12) : Statement (.jp nnn) := of_family (familyOf_wordNNN (by decide)) (by simp)
theorem call (nnn : BitVec 12) : Statement (.call nnn) := of_family (familyOf_wordNNN (by decide)) (by simp)
theorem seImm (x : Reg) (nn : Byte) : Statement (.seImm x nn) := of_family (familyOf_wordXNN (by decide) nn.isLt) (by simp)
theorem sneImm (x : Reg) (nn : Byte) : Statement (.sneImm x nn) := of_family (familyOf_wordXNN (by decide) nn.isLt) (by simp)
theorem seReg (x y : Reg) (n : BitVec 4) : Statement (.seReg x y n) := of_family (familyOf_wordXYN (by decide) n.isLt) (by simp)
theorem ldImm (x : Reg) (nn : Byte) : Statement (.ldImm x nn) := of_family (familyOf_wordXNN (by decide) nn.isLt) (by simp)
theorem addImm (x : Reg) (nn : Byte) : Statement (.addImm x nn) := of_family (familyOf_wordXNN (by decide) nn.isLt) (by simp)
theorem ldReg (x y : Reg) : Statement (.ldReg x y) := of_family (familyOf_wordXYN (by decide) (by decide)) (by simp)
theorem orReg (x y : Reg) : Statement (.orReg x y) := of_family (familyOf_wordXYN (by decide) (by decide)) (by simp)
theorem andReg (x y : Reg) : Statement (.andReg x y) := of_family (familyOf_wordXYN (by decide) (by decide)) (by simp)
theorem xorReg (x y : Reg) : Statement (.xorReg x y) := of_family (familyOf_wordXYN (by decide) (by decide)) (by simp)
theorem addReg (x y : Reg) : Statement (.addReg x y) := of_family (familyOf_wordXYN (by decide) (by decide)) (by simp)
theorem subReg (x y : Reg) : Statement (.subReg x y) := of_family (familyOf_wordXYN (by decide) (by decide)) (by simp)
theorem shr (x y : Reg) : Statement (.shr x y) := of_family (familyOf_wordXYN (by decide) (by decide)) (by simp)
theorem subn (x y : Reg) : Statement (.subn x y) := of_family (familyOf_wordXYN (by decide) (by decide)) (by simp)
theorem shl (x y : Reg) : Statement (.shl x y) := of_family (familyOf_wordXYN (by decide) (by decide)) (by simp)
theorem sneReg (x y : Reg) (n : BitVec 4) : Statement (.sneReg x y n) := of_family (familyOf_wordXYN (by decide) n.isLt) (by simp)
theorem ldI (nnn : BitVec 12) : Statement (.ldI nnn) := of_family (familyOf_wordNNN (by decide)) (by simp)
theorem jpV0 (nnn : BitVec 12) : Statement (.jpV0 nnn) := of_family (familyOf_wordNNN (by decide)) (by simp)
theorem rnd (x : Reg) (nn : Byte) : Statement (.rnd x nn) := of_family (familyOf_wordXNN (by decide) nn.isLt) (by simp)
theorem drw (x y : Reg) (n : BitVec 4) : Statement (.drw x y n) := of_family (familyOf_wordXYN (by decide) n.isLt) (by simp)
theorem skp (x : Reg) : Statement (.skp x) := of_family (familyOf_wordXNN (by decide) (by decide)) (by simp)
theorem sknp (x : Reg) : Statement (.sknp x) := of_family (familyOf_wordXNN (by decide) (by decide)) (by simp)
theorem ldVxDT (x : Reg) : Statement (.ldVxDT x) := of_family (familyOf_wordXNN (by decide) (by decide)) (by simp)
theorem wkey (x : Reg) : Statement (.wkey x) := of_family (familyOf_wordXNN (by decide) (by decide)) (by simp)
theorem ldDT (x : Reg) : Statement (.ldDT x) := of_family (familyOf_wordXNN (by decide) (by decide)) (by simp)
theorem ldST (x : Reg) : Statement (.ldST x) := of_family (familyOf_wordXNN (by decide) (by decide)) (by simp)
theorem addI (x : Reg) : Statement (.addI x) := of_family (familyOf_wordXNN (by decide) (by decide)) (by simp)
theorem ldF (x : Reg) : Statement (.ldF x) := of_family (familyOf_wordXNN (by decide) (by decide)) (by simp)
theorem ldB (x : Reg) : Statement (.ldB x) := of_family (familyOf_wordXNN (by decide) (by decide)) (by simp)
theorem storeRegs (x : Reg) : Statement (.storeRegs x) := of_family (familyOf_wordXNN (by decide) (by decide)) (by simp)
theorem loadRegs (x : Reg) : Statement (.loadRegs x) := of_family (familyOf_wordXNN (by decide) (by decide)) (by simp)
theorem unrecognized (w : Word) : Statement (.unrecognized w) := by
  refine fun h => ⟨rfl, fun _ => ?_⟩
  have hf : w.extractLsb' 12 4 = familyOf w := rfl
  simp only [Instr.wellFormed, isUnrecognizedWord, hf, Bool.or_eq_true, Bool.and_eq_true, beq_iff_eq] at h
  simp only [familyNibble]
  tauto

end Sys2Proof.Laws.FamilyNibble
end

