-- ==== Sys2Proof/Laws/Step.lean ====
section
/-! SUPPORT. What a move of an agent can do, said once; the meanings of CALL and RET, which branch, in closed form. -/

namespace Sys2Proof.Machine

variable (s : State)

/-! ### Moves -/

theorem step_of_agenda_nil (h : s.agenda = []) : step s = engineStep s := by
  simp [step, nextMove, h]

theorem step_of_agenda_cons {a : Action} {rest : List Action} (h : s.agenda = a :: rest) :
    step s = act a { s with agenda := rest } := by
  simp [step, nextMove, h]

/-- A ready engine executes the instruction at PC. -/
theorem engineStep_ready (h : s.running = true) (h' : s.fault = none) :
    engineStep s = exec s.fetchInstr s.advancePc := by
  simp [engineStep, h, h']

/-- An engine that answers a next state was ready, and executed the instruction at PC. -/
theorem engineStep_next {t : State} (h : engineStep s = .next t) :
    s.running = true ∧ s.fault = none ∧ exec s.fetchInstr s.advancePc = .next t := by
  unfold engineStep at h
  split at h
  · split at h
    · exact ⟨‹_›, ‹_›, h⟩
    · cases h
    · cases h
  · cases h

/-- A timer counts down by one and stops at 0 (60_exceptions.md R129). -/
@[simp] theorem toNat_countDown (b : Byte) : (countDown b).toNat = b.toNat - 1 := by
  revert b; decide

/-! ### CALL and RET -/

theorem exec_ret_of_pos (x : Reg) (h : ¬ s.sp.val = 0) :
    exec (.ret x) s = .next { s with pc := s.stack[s.sp.val - 1]'(by omega), sp := ⟨s.sp.val - 1, by omega⟩ } := by
  simp [exec, execRet, s.pop_ok h]; rfl

theorem exec_ret_of_zero (x : Reg) (h : s.sp.val = 0) :
    exec (.ret x) s = .next { s with fault := some .stackUnderflow, faultAddr := s.pc - 2 } := by
  simp [exec, execRet, s.pop_empty h]; rfl

theorem exec_call_of_lt (nnn : BitVec 12) (h : s.sp.val < 16) :
    exec (.call nnn) s =
      .next { s with pc := zextNNN nnn, stack := s.stack.set s.sp.val s.pc, sp := ⟨s.sp.val + 1, by omega⟩ } := by
  simp [exec, execCall, s.push_ok _ h]; rfl

theorem exec_call_of_full (nnn : BitVec 12) (h : ¬ s.sp.val < 16) :
    exec (.call nnn) s = .next { s with fault := some .stackOverflow, faultAddr := s.pc - 2 } := by
  simp [exec, execCall, s.push_full _ h]; rfl

/-! ### Operands as numbers -/

/-- A key's bit as arithmetic, with 0 for an index of 16 or more (45_timers_input.md R116). -/
theorem keyBit_eq_div (keys : Word) (k : Nat) :
    keyBit keys k = decide ((if k < 16 then keys.toNat / 2 ^ k % 2 else 0) = 1) := by
  rw [keyBit, BitVec.getLsbD]
  split
  · rw [Nat.testBit_eq_decide_div_mod_eq]
  · have : keys.toNat < 2 ^ k := lt_of_lt_of_le keys.isLt (Nat.pow_le_pow_right (by decide) (by omega))
    simp [Nat.testBit_lt_two_pow this]

theorem toNat_shiftRightFlag (a : Byte) : (shiftRightFlag a).toNat = a.toNat % 2 := by
  revert a; decide

theorem toNat_shiftLeftFlag (a : Byte) : (shiftLeftFlag a).toNat = a.toNat / 128 := by
  revert a; decide

end Sys2Proof.Machine
end

