-- ==== Sys2Proof/Tests/Slice0.lean ====
section
/-! SUPPORT. Tests. Expected values are those of spec/95_test_vectors.md (the vector's id stands in each docstring) or of
the rule named. The witnesses at the end meet the hypotheses of the obligations. -/

namespace Sys2Proof.Tests

open Sys2Proof Sys2Proof.Machine

/-! ### Ill-formed terms (30_encoding.md R62): words of other rows -/

theorem test_wellFormed_refuses_family0 : (Instr.unrecognized 0x0000).wellFormed = false ∧
    (Instr.unrecognized 0x05E0).wellFormed = false ∧ (Instr.unrecognized 0x00EE).wellFormed = false := by decide

theorem test_wellFormed_refuses_other_families : (Instr.unrecognized 0x1234).wellFormed = false ∧
    (Instr.unrecognized 0x8AB7).wellFormed = false ∧ (Instr.unrecognized 0x8ABE).wellFormed = false ∧
    (Instr.unrecognized 0xE19E).wellFormed = false ∧ (Instr.unrecognized 0xF129).wellFormed = false := by decide

theorem test_wellFormed_accepts : (Instr.unrecognized 0x0100).wellFormed = true ∧
    (Instr.unrecognized 0x8AB9).wellFormed = true ∧ (Instr.unrecognized 0xE100).wellFormed = true ∧
    (Instr.unrecognized 0xFFFF).wellFormed = true := by decide

/-! ### Decoding, a word of every row of 30_encoding.md R59 -/

theorem test_decode_family0 : decode 0b0000000000000000 = .nop ∧ decode 0b0000000111100000 = .cls 1 ∧
    decode 0b0000111111101110 = .ret 15 ∧ decode 0b0000000100000000 = .unrecognized 0x0100 := by decide

theorem test_decode_flow : decode 0b0001001000110100 = .jp 0x234 ∧ decode 0b0010001100000000 = .call 0x300 ∧
    decode 0b0011001101000010 = .seImm 3 0x42 ∧ decode 0b0100001101000010 = .sneImm 3 0x42 ∧
    decode 0b0101000100100001 = .seReg 1 2 1 ∧ decode 0b1001101010110011 = .sneReg 0xA 0xB 3 ∧
    decode 0b1011001100000000 = .jpV0 0x300 := by decide

theorem test_decode_immediate : decode 0b0110101001111011 = .ldImm 0xA 0x7B ∧ decode 0b0111000011111111 = .addImm 0 0xFF ∧
    decode 0b1010001100000000 = .ldI 0x300 ∧ decode 0b1100001100001111 = .rnd 3 0x0F ∧
    decode 0b1101010010100111 = .drw 4 0xA 7 := by decide

theorem test_decode_family8 : decode 0b1000000100100000 = .ldReg 1 2 ∧ decode 0b1000000100100001 = .orReg 1 2 ∧
    decode 0b1000000100100010 = .andReg 1 2 ∧ decode 0b1000000100100011 = .xorReg 1 2 ∧
    decode 0b1000000100100100 = .addReg 1 2 ∧ decode 0b1000000100100101 = .subReg 1 2 ∧
    decode 0b1000000100100110 = .shr 1 2 ∧ decode 0b1000000100100111 = .subn 1 2 ∧
    decode 0b1000000100101110 = .shl 1 2 ∧ decode 0b1000000100101111 = .unrecognized 0x812F := by decide

theorem test_decode_familyEF : decode 0b1110001010011110 = .skp 2 ∧ decode 0b1110001010100001 = .sknp 2 ∧
    decode 0b1111010100000111 = .ldVxDT 5 ∧ decode 0b1111001100001010 = .wkey 3 ∧
    decode 0b1111010100010101 = .ldDT 5 ∧ decode 0b1111000100011000 = .ldST 1 ∧
    decode 0b1111001000011110 = .addI 2 ∧ decode 0b1111000000101001 = .ldF 0 ∧
    decode 0b1111101000110011 = .ldB 0xA ∧ decode 0b1111001101010101 = .storeRegs 3 ∧
    decode 0b1111001001100101 = .loadRegs 2 ∧ decode 0b1111000001110101 = .unrecognized 0xF075 := by decide

theorem test_decodeTableWord : decodeTableWord 16 0x1234 = some (.jp 0x234) ∧ decodeTableWord 24 0 = none := by decide

theorem test_decodeBytes_truncated : decodeBytes [0x12] = .error .truncated ∧ decodeBytes [] = .error .truncated := by
  constructor <;> rfl

/-- R67: ignored bits 0. -/
theorem test_assembly : (Instr.seReg 1 2 1).assembledWord = 0x5120 ∧
    (Instr.storeRegs 3).assembly = ⟨"LD", [.atIndex, .reg 3]⟩ := by decide

/-! ### Single steps -/

/-- A core after reset with one instruction to fetch. -/
def at200 (w : Nat) : State := State.reset.withFetchWord 16 w

def State.modern (s : State) : State := s.withQuirk .modern

/-- What `f` reads in the state one step on. -/
def after {α : Type} (f : State → α) (s : State) : Option α :=
  match step s with
  | .next t => some (f t)
  | _ => none

/-- The model's own agreement: `State.reset` is construction with zeros and an empty ROM. -/
theorem test_reset_is_construct : construct Config.default Launch.zero (some []) = .next State.reset := by
  rw [construct_zero]
  rfl

/-- Byte order and the edge of the space (20_memory.md R40, R41, 95_test_vectors.md section 2.1). -/
theorem test_fetchWord : ({ (((at200 0x1234).memWrite 0xFFF 0x60).memWrite 0x000 0x07) with pc := 0x0FFF }).fetchWord = 0x6007 ∧
    ({ (at200 0x1234) with pc := 0x1200 }).fetchWord = 0x1234 := by decide

/-- R74's example, at 0x200. -/
theorem test_nop : after (fun t => (t.pc, t.diags.length)) (at200 0x0000) = some (0x202, 0) := by decide

/-- R75's example. -/
theorem test_unrecognized : after (fun t => (t.pc, t.diags)) (at200 0x8AB9) = some (0x202, [⟨0x200, 0x8AB9⟩]) := by decide

/-- F-6, with the entry at a middle depth. -/
theorem test_ret : after (fun t => (t.pc, t.sp))
    { (at200 0x00EE) with sp := 2, stack := (at200 0).stack.set 1 0x302 } = some (0x302, 1) := by decide

/-- F-7. -/
theorem test_ret_underflow : after (fun t => (t.fault, t.faultAddr, t.pc)) (at200 0x00EE) =
    some (some .stackUnderflow, 0x200, 0x202) := by decide

/-- F-2. -/
theorem test_jp : after State.pc (at200 0x1201) = some 0x201 := by decide

/-- F-4. -/
theorem test_call : after (fun t => (t.stack[15], t.sp, t.pc)) { (at200 0x2300) with sp := 15 } =
    some (0x202, 16, 0x300) := by decide

/-- F-5. -/
theorem test_call_overflow : after (fun t => (t.fault, t.faultAddr, t.pc, t.sp)) { (at200 0x2300) with sp := 16 } =
    some (some .stackOverflow, 0x200, 0x202, 16) := by decide

/-- F-9, F-10. -/
theorem test_seImm : after State.pc ((at200 0x3342).setReg 3 0x42) = some 0x204 ∧
    after State.pc ((at200 0x3342).setReg 3 0x41) = some 0x202 := by decide

/-- F-11. -/
theorem test_sneImm : after State.pc ((at200 0x4342).setReg 3 0x41) = some 0x204 := by decide

/-- F-13. -/
theorem test_seReg : after State.pc ((at200 0x5110).setReg 1 0x99) = some 0x204 := by decide

/-- F-15. -/
theorem test_sneReg : after State.pc (((at200 0x912F).setReg 1 7).setReg 2 8) = some 0x204 := by decide

/-- F-16. -/
theorem test_jpV0_legacy : after State.pc ((at200 0xBFFF).setReg 0 0xFF) = some 0x10FE := by decide

/-- F-17. -/
theorem test_jpV0_modern : after State.pc (State.modern ((at200 0xB3FF).setReg 3 2)) = some 0x401 := by decide

/-- A-1. -/
theorem test_ldImm : after (fun t => t.reg 0xA) (at200 0x6A7B) = some 0x7B := by decide

/-- A-3. -/
theorem test_addImm : after (fun t => (t.reg 0, t.reg 15)) (((at200 0x7001).setReg 0 0xFF).setReg 15 0x33) =
    some (0, 0x33) := by decide

/-- A-4. -/
theorem test_ldReg : after (fun t => t.reg 1) ((at200 0x8120).setReg 2 0x33) = some 0x33 := by decide

/-- A-5. -/
theorem test_orReg : after (fun t => (t.reg 1, t.reg 15))
    ((((at200 0x8121).setReg 1 0x0F).setReg 2 0xF0).setReg 15 0x55) = some (0xFF, 0x55) := by decide

/-- A-6. -/
theorem test_andReg : after (fun t => t.reg 1) (((at200 0x8122).setReg 1 0x3C).setReg 2 0x0F) = some 0x0C := by decide

/-- A-7. -/
theorem test_xorReg : after (fun t => t.reg 1) (((at200 0x8123).setReg 1 0xFF).setReg 2 0x0F) = some 0xF0 := by decide

/-- A-11. -/
theorem test_addReg : after (fun t => (t.reg 1, t.reg 15)) (((at200 0x8124).setReg 1 0x80).setReg 2 0x80) =
    some (0, 1) := by decide

/-- A-14. -/
theorem test_addReg_vf : after (fun t => (t.reg 1, t.reg 15)) (((at200 0x81F4).setReg 1 0x10).setReg 15 0xF5) =
    some (0x05, 1) := by decide

/-- A-15. -/
theorem test_subReg : after (fun t => (t.reg 1, t.reg 15)) (((at200 0x8125).setReg 1 0x05).setReg 2 0x0A) =
    some (0xFB, 0) := by decide

/-- A-19. -/
theorem test_subReg_vf : after (fun t => t.reg 15) (((at200 0x8F35).setReg 15 0x05).setReg 3 0x03) = some 0xFE := by
  decide

/-- A-22. -/
theorem test_shr_modern : after (fun t => (t.reg 1, t.reg 15))
    (State.modern (((at200 0x8126).setReg 1 0x05).setReg 2 0x80)) = some (0x02, 1) := by decide

/-- A-23. -/
theorem test_shr_legacy : after (fun t => (t.reg 1, t.reg 15)) (((at200 0x8126).setReg 1 0x05).setReg 2 0x80) =
    some (0x40, 0) := by decide

/-- A-28. -/
theorem test_subn : after (fun t => (t.reg 1, t.reg 15)) (((at200 0x8127).setReg 1 0x0A).setReg 2 0x05) =
    some (0xFB, 0) := by decide

/-- A-31. -/
theorem test_subn_vf : after (fun t => (t.reg 1, t.reg 15)) (((at200 0x81F7).setReg 1 0x05).setReg 15 0x03) =
    some (0xFB, 0) := by decide

/-- A-34. -/
theorem test_shl_legacy : after (fun t => (t.reg 1, t.reg 15)) ((at200 0x812E).setReg 2 0xC0) = some (0x80, 1) := by
  decide

/-- A-35. -/
theorem test_shl_vf : after (fun t => t.reg 15) (State.modern ((at200 0x8F0E).setReg 15 0x80)) = some 0x02 := by decide

/-- A-38. -/
theorem test_rnd : after (fun t => (t.reg 3, t.draws)) ((at200 0xC300).setReg 3 9) = some (0, 1) := by
  have h : ∀ b : Byte, b &&& 0 = 0 := by decide
  show some (Config.freeByte 0 &&& 0, 1) = _
  rw [h]

/-- M-1. -/
theorem test_ldI : after State.i { (at200 0xA123) with i := 0xFFFF } = some 0x0123 := by decide

/-- M-5. -/
theorem test_addI : after (fun t => (t.i, t.reg 15)) ({ (at200 0xF21E) with i := 0xFFFF }.setReg 2 1) =
    some (0, 1) := by decide

/-- M-6. -/
theorem test_addI_vf : after (fun t => (t.i, t.reg 15)) ({ (at200 0xFF1E) with i := 0x0FF0 }.setReg 15 0x20) =
    some (0x1010, 1) := by decide

/-- M-8 with FONT_BASE = 0x050. -/
theorem test_ldF : after State.i ((at200 0xF029).setReg 0 0x1F) = some (0x50 + 0x4B) := by decide

/-- M-9. -/
theorem test_ldF_absent : after (fun t => (t.i, t.diags)) ({ (at200 0xF029) with i := 0x300 }.withFx29 false) =
    some (0x300, [⟨0x200, 0xF029⟩]) := by decide

/-- M-13. -/
theorem test_ldB : after (fun t => (t.memRead 0xFFF, t.memRead 0x000, t.memRead 0x001, t.i))
    ({ (at200 0xFA33) with i := 0x0FFF }.setReg 10 0x64) = some (1, 0, 0, 0x0FFF) := by decide

/-- M-11. -/
theorem test_ldB_255 : after (fun t => (t.memRead 0x300, t.memRead 0x301, t.memRead 0x302))
    ({ (at200 0xFA33) with i := 0x0300 }.setReg 10 0xFF) = some (2, 5, 5) := by decide

/-- M-16, with two registers. -/
theorem test_storeRegs_legacy : after (fun t => (t.memRead 0xFFF, t.memRead 0x000, t.i))
    (({ (at200 0xF155) with i := 0x0FFF }.setReg 0 0x11).setReg 1 0x22) = some (0x11, 0x22, 0x1001) := by decide

/-- M-14, `Modern`. -/
theorem test_storeRegs_modern : after (fun t => (t.memRead 0x300, t.memRead 0x301, t.i))
    (State.modern (({ (at200 0xF155) with i := 0x0300 }.setReg 0 0x11).setReg 1 0x22)) =
    some (0x11, 0x22, 0x300) := by decide

/-- M-17. -/
theorem test_loadRegs : after (fun t => (t.reg 0, t.reg 1, t.reg 2, t.reg 3, t.i))
    (((({ (at200 0xF265) with i := 0x0300 }.setReg 3 9).memWrite 0x300 1).memWrite 0x301 2).memWrite 0x302 3) =
    some (1, 2, 3, 9, 0x303) := by decide

/-- D-2. -/
theorem test_cls : after (fun t => (t.disp[0], t.disp[31], t.reg 15))
    { ((at200 0x03E0).setReg 15 7) with disp := Vector.replicate 32 0xFF } = some (0, 0, 7) := by decide

/-- D-4, D-11. -/
theorem test_drw_edges : after (fun t => (t.disp[0], t.reg 15))
      (({ (at200 0xD011) with i := 0x300 }.setReg 0 60).memWrite 0x300 0xFF) = some (0x0F, 0) ∧
    after (fun t => (t.disp[0], t.reg 15))
      ((({ (at200 0xD011) with i := 0x300 }.setReg 0 62).memWrite 0x300 0xF0).withEdge .wrap) =
      some (0xC000000000000003, 0) := by decide

/-- D-9, D-10. -/
theorem test_drw_flag : after (fun t => (t.disp[0], t.reg 15))
      ({ (at200 0xD011) with i := 0x300, disp := (at200 0).disp.set 0 0x8000000000000000 }.memWrite 0x300 0xC0) =
      some (0x4000000000000000, 1) ∧
    after (fun t => (t.disp[0], t.reg 15)) (({ (at200 0xDF11) with i := 0x300 }.setReg 15 8).memWrite 0x300 0x80) =
      some (0x0080000000000000, 0) := by decide

/-- T-1. -/
theorem test_ldVxDT : after (fun t => t.reg 5) { (at200 0xF507) with dt := 0x3C } = some 0x3C := by decide

/-- T-2. -/
theorem test_ldDT : after State.dt ((at200 0xF515).setReg 5 0x3C) = some 0x3C := by decide

/-- T-3. -/
theorem test_ldST : after (fun t => (t.st, t.soundOn)) ((at200 0xF118).setReg 1 1) = some (1, true) := by decide

/-- T-8, T-11. -/
theorem test_skp : after State.pc { ((at200 0xE29E).setReg 2 0x0A) with keys := 0x0400 } = some 0x204 ∧
    after State.pc { ((at200 0xE29E).setReg 2 0x10) with keys := 0xFFFF } = some 0x202 := by decide

/-- T-12. -/
theorem test_sknp : after State.pc { ((at200 0xE2A1).setReg 2 0x10) with keys := 0xFFFF } = some 0x204 := by decide

/-- T-14. -/
theorem test_wkey_waits : after State.pc { (at200 0xF30A) with keys := 0x0004 } = some 0x200 := by decide

/-- T-15. -/
theorem test_wkey_goes_on : after (fun t => (t.pc, t.reg 3)) { ((at200 0xF30A).setReg 3 0x77) with keys := 0x0008 } =
    some (0x202, 0x77) := by decide

/-- T-6. -/
theorem test_timerTick : after (fun t => (t.dt, t.st)) { (at200 0) with dt := 0xFF, st := 2, agenda := [.timerTick] } =
    some (0xFE, 1) := by decide

/-- X-1: a `step` strobe at a faulted core changes nothing. -/
theorem test_faulted_step : after (fun t => (t.pc, t.sp, t.fault))
    { (at200 0x00E0) with fault := some .stackOverflow, sp := 16, agenda := [.engineStep] } =
    some (0x200, 16, some .stackOverflow) := by decide

/-- X-2. -/
theorem test_faulted_tick : after State.dt
    { (at200 0) with fault := some .stackOverflow, dt := 5, agenda := [.timerTick] } = some 4 := by decide

/-- 40_control_unit.md R78, at the wait of T-14. -/
theorem test_awaitingKey : (at200 0xF30A).awaitingKey = some 3 ∧
    ({ (at200 0xF30A) with keys := 0x0008 } : State).awaitingKey = none := by decide

/-! ### Witnesses: states and operands that meet the hypotheses of the obligations, clause by clause -/

/-- The engine faulted after an overflow. -/
def overflowed : State := { State.reset with fault := some .stackOverflow, sp := 16, faultAddr := 0x1FE }

/-- Every mask and pattern of the `DecodesAs` clauses is met by a word. -/
theorem witness_DecodesAs : (0x02E0 &&& 0xF0FF#16) = 0x00E0 ∧ (0x03EE &&& 0xF0FF#16) = 0x00EE ∧
    (∀ f : Fin 16, ((BitVec.ofNat 16 (f.val * 0x1000) + 0x0ABC) &&& 0xF000) = BitVec.ofNat 16 (f.val * 0x1000)) ∧
    (∀ n : Fin 16, ((0x8AB0 + BitVec.ofNat 16 n.val) &&& 0xF00F#16) = 0x8000 + BitVec.ofNat 16 n.val) ∧
    (∀ k ∈ [0x9E, 0xA1], ((0xEB00 + BitVec.ofNat 16 k) &&& 0xF0FF#16) = 0xE000 + BitVec.ofNat 16 k) ∧
    (∀ k ∈ [0x07, 0x0A, 0x15, 0x18, 0x1E, 0x29, 0x33, 0x55, 0x65],
      ((0xFB00 + BitVec.ofNat 16 k) &&& 0xF0FF#16) = 0xF000 + BitVec.ofNat 16 k) := by decide

/-- For DecodeInvertsEncode and IgnoredBitsChangeNothing. -/
theorem witness_wellFormed : (Instr.drw 15 0 15).wellFormed = true ∧ (Instr.unrecognized 0x8AB8).wellFormed = true ∧
    (Instr.seReg 1 2 15).wellFormed = true := by decide

/-- For StepRunsDecodedInstruction: a fetch over the end of the space, a strobe, a fault. -/
theorem witness_StepRunsDecodedInstruction :
    (∃ s : State, EngineMoves s ∧
      decodeBytes [Memory.read s.cfg s.mem (s.pc.toNat % 4096), Memory.read s.cfg s.mem ((s.pc + 1).toNat % 4096)] =
        .ok (.ldImm 0 7, [])) ∧
    (∃ s : State, s.running = true ∧ s.fault = none ∧ s.agenda = .engineStep :: [.timerTick]) ∧
    overflowed.fault ≠ none ∧ overflowed.agenda = [] :=
  ⟨⟨State.withFetchWord { State.reset with pc := 0xFFFF } 16 0x6007, ⟨rfl, rfl, rfl⟩, rfl⟩,
    ⟨{ State.reset with agenda := [.engineStep, .timerTick] }, rfl, rfl, rfl⟩, by simp [overflowed], rfl⟩

/-- For StepKeepsInvariant and ParametersAreNeverWritten: a store, and a call that overflows. -/
theorem witness_StepKeepsInvariant :
    (∃ s t : State, Inv s ∧ step s = .next t ∧ t.mem ≠ s.mem) ∧
    (∃ s t : State, Inv s ∧ step s = .next t ∧ t.fault = some .stackOverflow) :=
  ⟨⟨(at200 0xF033).setReg 0 0xFF, _, ⟨by decide, nofun, nofun⟩, rfl, by decide⟩,
    ⟨{ (at200 0x2200) with sp := 16 }, _, ⟨by decide, nofun, nofun⟩, rfl, rfl⟩⟩

/-- For AgentsWriteOnlyTheirState: each move that is not the engine's, and an instruction that writes no timer. -/
theorem witness_AgentsWriteOnlyTheirState :
    (∀ a ∈ [Action.timerTick, .writeKeys 0xFFFF, .shutdown], a ≠ .engineStep ∧
      ∃ t, step { State.reset with agenda := [a] } = .next t) ∧
    (∃ t, exec (.ldB 3) State.reset = .next t) ∧ (∀ x, Instr.ldB 3 ≠ .ldDT x) ∧ (∀ x, Instr.ldB 3 ≠ .ldST x) := by
  refine ⟨fun a ha => ?_, ⟨_, rfl⟩, by simp, by simp⟩
  simp only [List.mem_cons, List.not_mem_nil, or_false] at ha
  rcases ha with rfl | rfl | rfl <;> exact ⟨by simp, _, rfl⟩

/-- For the statements that a part of the state or of the parameters is not read: KeysAreReadByThreeInstructions,
NoInstructionReadsSoundTimer, QuirkSelectsFiveInstructions, OtherParametersSelectTheirInstruction. -/
theorem witness_not_read : readsKeys (.ldVxDT 1) = false ∧ (∀ x, Instr.ldVxDT 1 ≠ .ldST x) ∧
    readsQuirk (.subReg 1 2) = false ∧ (∀ x y n, Instr.cls 0 ≠ .drw x y n) ∧ (∀ x, Instr.ldI 5 ≠ .ldF x) := by
  refine ⟨rfl, ?_, rfl, ?_, ?_⟩ <;> simp

/-- For OnlyCallAndRetTouchTheStack: other instructions; a stale entry at depth 0 and at depth 15. -/
theorem witness_OnlyCallAndRetTouchTheStack : (∀ x, Instr.nop ≠ .ret x) ∧ (∀ n, Instr.nop ≠ .call n) ∧
    (∃ s t : State, s.sp.val ≤ (0 : Fin 16).val ∧ exec (.call 0x300) s = .next t ∧ (0 : Fin 16).val < t.sp.val) ∧
    (∃ s t : State, s.sp.val = 15 ∧ s.sp.val ≤ (15 : Fin 16).val ∧ exec (.ret 0) s = .next t ∧
      (13 : Fin 16).val < t.sp.val) :=
  ⟨by simp, by simp, ⟨State.reset, _, by decide, rfl, by decide⟩,
    ⟨{ State.reset with sp := 15 }, _, rfl, by decide, rfl, by decide⟩⟩

/-- For InstructionsWriteOnlyTheListedState. -/
theorem witness_InstructionsWriteOnlyTheListedState : ∃ t, exec (.storeRegs 15) State.reset = .next t := ⟨_, rfl⟩

/-- For NopDoesNothing. -/
theorem witness_NopDoesNothing : EngineMoves (at200 0) ∧ (at200 0).fetchWord = 0x0000 ∧ (15 : Reg) ≠ 0 :=
  ⟨⟨rfl, rfl, rfl⟩, by decide, by decide⟩

/-- For RetPopsTheCallStack, CallPushesReturnAddress and ControlFlowFaultEntry: both ends of the depth. -/
theorem witness_stack_depths : (∃ s : State, 0 < s.sp.val ∧ s.sp.val = 1) ∧ (∃ s : State, 0 < s.sp.val ∧ s.sp.val = 16) ∧
    (∃ s : State, s.sp.val = 0 ∧ s.sp.val < 16) ∧ (∃ s : State, s.sp.val = 15 ∧ s.sp.val < 16) :=
  ⟨⟨{ State.reset with sp := 1 }, by decide, rfl⟩, ⟨{ State.reset with sp := 16 }, by decide, rfl⟩,
    ⟨State.reset, rfl, by decide⟩, ⟨{ State.reset with sp := 15 }, rfl, by decide⟩⟩

/-- For JumpWithOffsetAddsTheQuirkRegister, BlockStoreWritesRegisters and BlockLoadReadsMemory: both values of QUIRK, the
registers X of BNNN at the ends of its range, the registers at the ends of a block and past it. -/
theorem witness_quirk : State.reset.cfg.quirk = .legacy ∧ (State.reset.withQuirk .modern).cfg.quirk = .modern ∧
    (0 : Reg).val = (0x0FF#12).toNat / 256 ∧ (15 : Reg).val = (0xF00#12).toNat / 256 ∧
    (0 : Reg) ≤ 0 ∧ (15 : Reg) ≤ 15 ∧ (0 : Reg) < 1 ∧ (14 : Reg) < 15 := by decide

/-- For AddRegistersCarryLast, SubtractFlagFirst and ShiftFlagBeforeShift: a destination that is not VF and one that is,
and the value shifted under both values of QUIRK. -/
theorem witness_shift : (0 : Reg) ≠ 15 ∧ (14 : Reg) ≠ 15 ∧
    (∃ s : State, 0x81 = (if s.cfg.quirk = .legacy then (s.reg 2).toNat else (s.reg 1).toNat)) ∧
    (∃ s : State, s.cfg.quirk = .modern ∧ 0xFF = (if s.cfg.quirk = .legacy then (s.reg 2).toNat else (s.reg 15).toNat)) :=
  ⟨by decide, by decide, ⟨State.reset.setReg 2 0x81, by decide⟩,
    ⟨(State.reset.withQuirk .modern).setReg 15 0xFF, by decide, by decide⟩⟩

/-- For RandomByteIsMasked: the draw there is, whatever it is. -/
theorem witness_RandomByteIsMasked : ∃ r : Byte, r = Config.freeByte State.reset.draws := ⟨_, rfl⟩

/-- For GlyphAddressOrDiagnostic. -/
theorem witness_GlyphAddressOrDiagnostic : State.reset.cfg.fx29Present = true ∧
    (State.reset.withFx29 false).cfg.fx29Present = false ∧ (0xFF29#16).toNat = 0xF029 + 0x100 * (15 : Reg).val := by decide

/-- For DrawClipsAtTheEdges: a sprite bit on pixel (0, 0) that was lit, so `hit` holds of a lit pixel; and one with no row,
where it holds of none. -/
theorem witness_DrawClipsAtTheEdges : ∃ (s : State) (hit : Fin 64 → Fin 32 → Prop), s.cfg.spriteEdge = .clip ∧
    0 = (s.reg 0).toNat % 64 ∧ 0 = (s.reg 1).toNat % 32 ∧
    (∀ px py, hit px py ↔ ∃ r < (1#4).toNat, ∃ c < 8, px.val = 0 + c ∧ py.val = 0 + r ∧
      (s.memRead (s.i + BitVec.ofNat 16 r)).getLsbD (7 - c) = true) ∧
    (∃ px py, hit px py ∧ s.pixel px py = true) ∧ ∃ px py, ¬ hit px py := by
  refine ⟨{ State.reset.memWrite 0x300 0x80 with i := 0x300, disp := Vector.replicate 32 0xFFFFFFFFFFFFFFFF },
    fun px py => ∃ r < (1#4).toNat, ∃ c < 8, px.val = 0 + c ∧ py.val = 0 + r ∧
      ((State.reset.memWrite 0x300 0x80).memRead (0x300 + BitVec.ofNat 16 r)).getLsbD (7 - c) = true,
    rfl, by decide, by decide, fun _ _ => Iff.rfl, ⟨0, 0, ⟨0, by decide, 0, by decide, by decide⟩, by decide⟩,
    ⟨0, 31, ?_⟩⟩
  rintro ⟨r, hr, c, hc, -, h, -⟩
  simp at hr h
  omega

/-- For DrawWrapsAtTheEdges: an anchor at the right edge, whose second column falls on pixel (0, 0). -/
theorem witness_DrawWrapsAtTheEdges : ∃ (s : State) (hit : Fin 64 → Fin 32 → Prop), s.cfg.spriteEdge = .wrap ∧
    63 = (s.reg 0).toNat % 64 ∧ 0 = (s.reg 1).toNat % 32 ∧
    (∀ px py, hit px py ↔ ∃ r < (1#4).toNat, ∃ c < 8, px.val = (63 + c) % 64 ∧ py.val = (0 + r) % 32 ∧
      (s.memRead (s.i + BitVec.ofNat 16 r)).getLsbD (7 - c) = true) ∧ hit 0 0 := by
  refine ⟨({ State.reset.memWrite 0x300 0x40 with i := 0x300 }.setReg 0 63).withEdge .wrap,
    fun px py => ∃ r < (1#4).toNat, ∃ c < 8, px.val = (63 + c) % 64 ∧ py.val = (0 + r) % 32 ∧
      ((State.reset.memWrite 0x300 0x40).memRead (0x300 + BitVec.ofNat 16 r)).getLsbD (7 - c) = true,
    rfl, by decide, by decide, fun _ _ => Iff.rfl, ⟨0, by decide, 1, by decide, by decide⟩⟩

/-- For the last clauses of the drawing statements and for DrawingTwiceRestoresTheDisplay: no pixel is lit. -/
theorem witness_blank_display : (∀ px py, State.reset.pixel px py = false) ∧ (0 : Reg) ≠ 15 ∧ (14 : Reg) ≠ 15 :=
  ⟨by simp [State.pixel, State.reset], by decide, by decide⟩

/-- For KeySkipsFollowTheLatch: keys 0, 15 and 16, held and not. -/
theorem witness_KeySkipsFollowTheLatch : ∀ k ∈ [(0, 1), (15, 1), (16, 0), (255, 0)], ∃ s : State,
    k.2 = (if (s.reg 1).toNat < 16 then s.keys.toNat / 2 ^ (s.reg 1).toNat % 2 else 0) ∧ (s.reg 1).toNat = k.1 := by
  intro k hk
  refine ⟨{ State.reset.setReg 1 (BitVec.ofNat 8 k.1) with keys := 0xFFFF }, ?_⟩
  simp only [List.mem_cons, List.not_mem_nil, or_false] at hk
  rcases hk with rfl | rfl | rfl | rfl <;> decide

/-- For WaitKeyRewindsUntilHeld: keys 0 and 15. -/
theorem witness_WaitKeyRewindsUntilHeld : State.reset.keys.toNat / 2 ^ (0 : Reg).val % 2 = 0 ∧
    (0x8000#16).toNat / 2 ^ (15 : Reg).val % 2 = 1 ∧ (0x8000#16).toNat / 2 ^ (14 : Reg).val % 2 = 0 := by decide

/-- For ControlFlowFaultEntry and FaultIsNeverCleared: the faulted engine, each move on the agenda. -/
theorem witness_ControlFlowFaultEntry : overflowed.running = true ∧ overflowed.agenda = [] ∧
    overflowed.fault = some .stackOverflow ∧ ({ overflowed with fault := some .stackUnderflow, sp := 0 } : State).fault ≠ none ∧
    (∀ a : Action, ({ overflowed with agenda := [a] } : State).agenda = a :: []) ∧
    (∃ t, step { overflowed with agenda := [.timerTick] } = .next t) :=
  ⟨rfl, rfl, rfl, by simp, fun _ => rfl, ⟨_, rfl⟩⟩

/-- For TimerTickCountsBothDown, TimersReachZeroAndStay, TimerWriteIsNotLost and HostWritesKeysAndShutsDown: running and
shut down. -/
theorem witness_agenda : (∀ a : Action, ({ State.reset with agenda := [a] } : State).agenda = a :: []) ∧
    State.reset.running = true ∧ ({ State.reset with running := false } : State).running = false ∧
    ({ State.reset with running := false } : State).agenda = [] := ⟨fun _ => rfl, rfl, rfl, rfl⟩

/-- For ConstructionLoadsFontAndRom and ConstructionRefusesBadRom: the longest ROM that fits, an empty one, one byte too
many; an address outside font and ROM. -/
theorem witness_construction : (List.replicate 3584 (0xA5 : Byte)).length ≤ 3584 ∧ ([] : List Byte).length ≤ 3584 ∧
    2 ≤ (List.replicate 3584 (0xA5 : Byte)).length ∧ 3583 < (List.replicate 3584 (0xA5 : Byte)).length ∧
    3584 < (List.replicate 3585 (0xA5 : Byte)).length ∧
    0x1FF < 4096 ∧ ¬ (Config.default.fontBase.val ≤ 0x1FF ∧ 0x1FF < Config.default.fontBase.val + 80) := by
  simp only [List.length_replicate]
  decide

/-- For AwaitingKeyStepChangesNothing. -/
theorem witness_AwaitingKeyStepChangesNothing : EngineMoves (at200 0xFF0A) ∧ (at200 0xFF0A).awaitingKey = some 15 :=
  ⟨⟨rfl, rfl, rfl⟩, by decide⟩

/-- For SelfJumpIsAFixedPoint: a self-jump at the highest address a jump reaches. -/
theorem witness_SelfJumpIsAFixedPoint : ∃ s : State, EngineMoves s ∧ AtSelfJump s ∧ s.pc = 0x0FFF ∧
    s.fetchInstr = .jp 0xFFF ∧ step s = .next s := by
  refine ⟨State.withFetchWord { State.reset with pc := 0x0FFF } 16 0x1FFF, ⟨rfl, rfl, rfl⟩,
    ⟨rfl, 0xFFF, by decide, by decide⟩, rfl, by decide, ?_⟩
  rw [step_of_agenda_nil _ rfl, engineStep_ready _ rfl rfl]
  rfl

/-- For StoredWordIsFetchedNext: a block that ends at the top of the space and goes on at its bottom. -/
theorem witness_StoredWordIsFetchedNext : ∃ s t : State, exec (.storeRegs 1) s = .next t ∧ (0 : Reg) ≤ 1 ∧ (1 : Reg) ≤ 1 ∧
    (1 : Reg).val = (0 : Reg).val + 1 ∧ memAddr s.pc = memAddr (s.i + BitVec.ofNat 16 (0 : Reg).val) :=
  ⟨{ State.reset with pc := 0x0FFF, i := 0xFFFF }, _, rfl, by decide, by decide, by decide, by decide⟩

/-- For AddressesReduceModuloTheSpace: both ends of the space. -/
theorem witness_AddressesReduceModuloTheSpace : (0x0FFF#16).toNat % 4096 = (0xFFFF#16).toNat % 4096 ∧
    (0x0000#16).toNat % 4096 = (0x1000#16).toNat % 4096 ∧ (0x0FFF#16).toNat % 4096 ≠ (0x1000#16).toNat % 4096 := by decide

end Sys2Proof.Tests
end

section
/-! SUPPORT. Which construction parameters an instruction and a step read (00_scope.md R4 to R8): rewriting the parameters
commutes with every operation that reads none of those rewritten. -/

namespace Sys2Proof.Machine

/-- The same machine with its construction parameters rewritten by `g`. -/
def State.mapCfg (g : Config → Config) (s : State) : State := { s with cfg := g s.cfg }

/-- `g` leaves FONT_BASE and FONT_DATA, which every memory access may read. -/
structure KeepsFont (g : Config → Config) : Prop where
  base : ∀ c, (g c).fontBase = c.fontBase
  data : ∀ c, (g c).fontData = c.fontData

/-- `g` leaves every parameter that `i` may read: the font, QUIRK for the five instructions of R4, SPRITE_EDGE for DXYN and
FX29_PRESENT for FX29. -/
structure KeepsParametersOf (i : Instr) (g : Config → Config) : Prop extends KeepsFont g where
  quirk : readsQuirk i = true → ∀ c, (g c).quirk = c.quirk
  edge  : ∀ x y n, i = .drw x y n → ∀ c, (g c).spriteEdge = c.spriteEdge
  fx29  : ∀ x, i = .ldF x → ∀ c, (g c).fx29Present = c.fx29Present

variable {g : Config → Config}

/-! ### The font -/

theorem KeepsFont.initialByte (h : KeepsFont g) (c : Config) (n : Nat) :
    Memory.initialByte (g c) n = Memory.initialByte c n := by
  simp only [Memory.initialByte, Memory.fontByte, h.base, h.data]

theorem KeepsFont.glyphAddr (h : KeepsFont g) (c : Config) (b : Byte) :
    Machine.glyphAddr (g c) b = Machine.glyphAddr c b := by
  simp only [Machine.glyphAddr, h.base]

namespace State

variable (s : State)

/-! ### What rewriting the parameters leaves -/

@[simp] theorem mapCfg_cfg : (s.mapCfg g).cfg = g s.cfg := rfl
@[simp] theorem mapCfg_pc : (s.mapCfg g).pc = s.pc := rfl
@[simp] theorem mapCfg_i : (s.mapCfg g).i = s.i := rfl
@[simp] theorem mapCfg_fault : (s.mapCfg g).fault = s.fault := rfl
@[simp] theorem mapCfg_running : (s.mapCfg g).running = s.running := rfl

/-! ### Operations commute with it -/

theorem setReg_mapCfg (x : Reg) (b : Byte) : (s.mapCfg g).setReg x b = (s.setReg x b).mapCfg g := rfl
theorem setFlag_mapCfg (b : Byte) : (s.mapCfg g).setFlag b = (s.setFlag b).mapCfg g := rfl

theorem skipIf_mapCfg (b : Bool) : (s.mapCfg g).skipIf b = (s.skipIf b).mapCfg g := by
  rw [skipIf_eq, skipIf_eq]; rfl

theorem blitPixel_mapCfg (p : Fin 64 × Fin 32) : (s.mapCfg g).blitPixel p = (s.blitPixel p).mapCfg g := by
  have hpixel : (s.mapCfg g).pixel p.1 p.2 = s.pixel p.1 p.2 := rfl
  unfold blitPixel
  rw [hpixel]
  split <;> rfl

theorem foldl_blitPixel_mapCfg (ps : List (Fin 64 × Fin 32)) :
    ps.foldl blitPixel (s.mapCfg g) = (ps.foldl blitPixel s).mapCfg g :=
  List.foldl_hom (mapCfg g) fun t p => blitPixel_mapCfg t p

section Font

variable (h : KeepsFont g)
include h

theorem memRead_mapCfg (a : Word) : (s.mapCfg g).memRead a = s.memRead a :=
  Memory.read_congr (h.initialByte s.cfg)

theorem memWrite_mapCfg (a : Word) (b : Byte) : (s.mapCfg g).memWrite a b = (s.memWrite a b).mapCfg g :=
  congrArg (fun m => ({ s with cfg := g s.cfg, mem := m } : State)) (Memory.write_congr (h.initialByte s.cfg))

theorem fetchInstr_mapCfg : (s.mapCfg g).fetchInstr = s.fetchInstr := by
  simp only [fetchInstr, fetchWord, memRead_mapCfg _ h, mapCfg_pc]

theorem storeBcd_mapCfg (b : Byte) : (s.mapCfg g).storeBcd b = (s.storeBcd b).mapCfg g := by
  simp only [storeBcd, memWrite_mapCfg _ h, mapCfg_i]

theorem storeBlock_mapCfg (rs : List Reg) : (s.mapCfg g).storeBlock rs = (s.storeBlock rs).mapCfg g :=
  List.foldl_hom (mapCfg g) fun t k => memWrite_mapCfg t h (indexed t.i k.val) (t.reg k)

theorem loadBlock_mapCfg (rs : List Reg) : (s.mapCfg g).loadBlock rs = (s.loadBlock rs).mapCfg g :=
  List.foldl_hom (mapCfg g) fun t k => by
    rw [memRead_mapCfg t h, setReg_mapCfg, mapCfg_i]

theorem blitRow_mapCfg (he : ∀ c, (g c).spriteEdge = c.spriteEdge) (x0 y0 r : Nat) :
    blitRow x0 y0 (s.mapCfg g) r = (blitRow x0 y0 s r).mapCfg g := by
  simp only [blitRow, memRead_mapCfg _ h, mapCfg_cfg, mapCfg_i, he, foldl_blitPixel_mapCfg]

theorem drawSprite_mapCfg (he : ∀ c, (g c).spriteEdge = c.spriteEdge) (x0 y0 n : Nat) :
    (s.mapCfg g).drawSprite x0 y0 n = (s.drawSprite x0 y0 n).mapCfg g := by
  rw [drawSprite, drawSprite, setFlag_mapCfg]
  exact List.foldl_hom (mapCfg g) fun t r => blitRow_mapCfg t h he x0 y0 r

end Font

end State

/-! ### Instructions and steps -/

/-- Rewriting parameters that an instruction does not read changes nothing of what it does. -/
theorem exec_mapCfg {i : Instr} (h : KeepsParametersOf i g) (s : State) :
    exec i (s.mapCfg g) = mapNext (State.mapCfg g) (exec i s) := by
  have hfont := h.toKeepsFont
  cases i with
  | ret x =>
    by_cases hsp : s.sp.val = 0
    · rw [exec_ret_of_zero _ _ hsp, exec_ret_of_zero (s.mapCfg g) _ hsp]; rfl
    · rw [exec_ret_of_pos _ _ hsp, exec_ret_of_pos (s.mapCfg g) _ hsp]; rfl
  | call nnn =>
    by_cases hsp : s.sp.val < 16
    · rw [exec_call_of_lt _ _ hsp, exec_call_of_lt (s.mapCfg g) _ hsp]; rfl
    · rw [exec_call_of_full _ _ hsp, exec_call_of_full (s.mapCfg g) _ hsp]; rfl
  | seImm | sneImm | seReg | sneReg | skp | sknp => exact congrArg _ (s.skipIf_mapCfg _)
  | wkey x => simp only [exec, execWkey, mapNext, apply_ite (State.mapCfg g)]; rfl
  | jpV0 nnn => simp only [exec, execJpV0, State.mapCfg_cfg, h.quirk rfl]; rfl
  | shr x y => simp only [exec, execShr, State.mapCfg_cfg, h.quirk rfl]; rfl
  | shl x y => simp only [exec, execShl, State.mapCfg_cfg, h.quirk rfl]; rfl
  | ldF x =>
    simp only [exec, execLdF, State.mapCfg_cfg, h.fx29 x rfl, hfont.glyphAddr]
    split <;> rfl
  | ldB x => exact congrArg _ (s.storeBcd_mapCfg hfont _)
  | storeRegs x =>
    simp only [exec, execStoreRegs, State.mapCfg_cfg, h.quirk rfl, s.storeBlock_mapCfg hfont]; rfl
  | loadRegs x =>
    simp only [exec, execLoadRegs, State.mapCfg_cfg, h.quirk rfl, s.loadBlock_mapCfg hfont]; rfl
  | drw x y n => exact congrArg _ (s.drawSprite_mapCfg hfont (h.edge x y n rfl) _ _ _)
  | _ => rfl

/-- Rewriting parameters that no instruction reads changes nothing of what an engine step does. -/
theorem engineStep_mapCfg (h : ∀ i, KeepsParametersOf i g) (s : State) :
    engineStep (s.mapCfg g) = mapNext (State.mapCfg g) (engineStep s) := by
  have hexec : exec (s.mapCfg g).fetchInstr (s.mapCfg g).advancePc =
      mapNext (State.mapCfg g) (exec s.fetchInstr s.advancePc) := by
    rw [s.fetchInstr_mapCfg (h .nop).toKeepsFont]
    exact exec_mapCfg (h _) s.advancePc
  simp only [engineStep, hexec, State.mapCfg_running, State.mapCfg_fault]
  split
  · split <;> rfl
  · rfl

theorem timerTick_mapCfg (s : State) : timerTick (s.mapCfg g) = (timerTick s).mapCfg g := by
  rw [timerTick, timerTick, apply_ite (State.mapCfg g)]; rfl

/-- A strobe at an engine that has no step, a tick, a KEYS write and a shutdown read no parameter at all. -/
theorem act_mapCfg (h : ∀ i, KeepsParametersOf i g) (a : Action) (s : State) :
    act a (s.mapCfg g) = mapNext (State.mapCfg g) (act a s) := by
  cases a with
  | engineStep =>
    have hready : (s.mapCfg g).engineReady = s.engineReady := rfl
    simp only [act, hready, engineStep_mapCfg h]
    split <;> rfl
  | timerTick => exact congrArg _ (timerTick_mapCfg s)
  | writeKeys m => rfl
  | shutdown => rfl

/-- The same for a step of the machine, whichever agent moves. -/
theorem step_mapCfg (h : ∀ i, KeepsParametersOf i g) (s : State) :
    step (s.mapCfg g) = mapNext (State.mapCfg g) (step s) := by
  cases hagenda : s.agenda with
  | nil =>
    rw [step_of_agenda_nil s hagenda, step_of_agenda_nil (s.mapCfg g) hagenda, engineStep_mapCfg h]
  | cons a rest =>
    rw [step_of_agenda_cons s hagenda, step_of_agenda_cons (s.mapCfg g) hagenda]
    exact act_mapCfg h a { s with agenda := rest }

/-! ### Rewriting KEYPAD_LAYOUT, CLOCK_RATE, SPRITE_EDGE and FX29_PRESENT -/

theorem keepsParametersOf_withLayoutAndRate (l : KeypadLayout) (r : Nat) (i : Instr) :
    KeepsParametersOf i (fun c => { c with keypadLayout := l, clockRate := r }) :=
  ⟨⟨fun _ => rfl, fun _ => rfl⟩, fun _ _ => rfl, fun _ _ _ _ _ => rfl, fun _ _ _ => rfl⟩

theorem keepsParametersOf_withEdge (e : SpriteEdge) {i : Instr} (hi : ∀ x y n, i ≠ .drw x y n) :
    KeepsParametersOf i (fun c => { c with spriteEdge := e }) :=
  ⟨⟨fun _ => rfl, fun _ => rfl⟩, fun _ _ => rfl, fun x y n hdrw => absurd hdrw (hi x y n), fun _ _ _ => rfl⟩

theorem keepsParametersOf_withFx29 (b : Bool) {i : Instr} (hi : ∀ x, i ≠ .ldF x) :
    KeepsParametersOf i (fun c => { c with fx29Present := b }) :=
  ⟨⟨fun _ => rfl, fun _ => rfl⟩, fun _ _ => rfl, fun _ _ _ _ _ => rfl, fun x hldF => absurd hldF (hi x)⟩

/-- Settles O16: each rewriting keeps the parameters that the step or the instruction reads. -/
theorem otherParametersSelectTheirInstruction : Obligations.OtherParametersSelectTheirInstruction :=
  ⟨fun s l r => step_mapCfg (keepsParametersOf_withLayoutAndRate l r) s,
    fun _ s e hi => exec_mapCfg (keepsParametersOf_withEdge e hi) s,
    fun _ s b hi => exec_mapCfg (keepsParametersOf_withFx29 b hi) s⟩

end Sys2Proof.Machine
end

section
/-! SUPPORT. What an instruction leaves unchanged: one rule for `SameBut` per operation of the state, and from them the
frame of every instruction (10_state.md R17, R19 to R22, R24 to R26). -/

namespace Sys2Proof.Machine

variable {s t u : State} {parts : List Part} {regs : List Reg} {cells : List Nat}

/-! ### Nothing, and one change after another -/

theorem SameBut.refl (s : State) (parts : List Part) (regs : List Reg) (cells : List Nat) :
    SameBut s s parts regs cells where
  cfg := rfl
  keys := rfl
  running := rfl
  agenda := rfl
  reg _ _ := rfl
  mem _ _ := rfl
  pc _ := rfl
  i _ := rfl
  dt _ := rfl
  st _ := rfl
  stack _ := ⟨rfl, rfl⟩
  disp _ := rfl
  fault _ := ⟨rfl, rfl⟩
  diags _ := rfl
  draws _ := rfl

theorem SameBut.trans (h : SameBut s t parts regs cells) (h' : SameBut t u parts regs cells) :
    SameBut s u parts regs cells where
  cfg := h'.cfg.trans h.cfg
  keys := h'.keys.trans h.keys
  running := h'.running.trans h.running
  agenda := h'.agenda.trans h.agenda
  reg r hr := (h'.reg r hr).trans (h.reg r hr)
  mem a ha := (h'.mem a ha).trans (h.mem a ha)
  pc hp := (h'.pc hp).trans (h.pc hp)
  i hp := (h'.i hp).trans (h.i hp)
  dt hp := (h'.dt hp).trans (h.dt hp)
  st hp := (h'.st hp).trans (h.st hp)
  stack hp := ⟨(h'.stack hp).1.trans (h.stack hp).1, (h'.stack hp).2.trans (h.stack hp).2⟩
  disp hp := (h'.disp hp).trans (h.disp hp)
  fault hp := ⟨(h'.fault hp).1.trans (h.fault hp).1, (h'.fault hp).2.trans (h.fault hp).2⟩
  diags hp := (h'.diags hp).trans (h.diags hp)
  draws hp := (h'.draws hp).trans (h.draws hp)

/-- A frame that every element of a list keeps is kept by the whole fold. -/
theorem SameBut.foldl {α : Type} {f : State → α → State} {l : List α}
    (h : ∀ (t : State), ∀ a ∈ l, SameBut t (f t a) parts regs cells) (s : State) :
    SameBut s (l.foldl f s) parts regs cells := by
  induction l generalizing s with
  | nil => exact .refl ..
  | cons a l ih => exact (h s a (by simp)).trans (ih (fun t b hb => h t b (by simp [hb])) (f s a))

namespace State

variable (s)

/-! ### Registers and memory -/

theorem sameBut_setReg {x : Reg} (hx : x ∈ regs) (b : Byte) : SameBut s (s.setReg x b) parts regs cells :=
  { SameBut.refl s parts regs cells with
    reg := fun r hr => by
      have hne : r ≠ x := fun e => hr (e ▸ hx)
      simp [hne] }

theorem sameBut_setFlag (hx : vf ∈ regs) (b : Byte) : SameBut s (s.setFlag b) parts regs cells :=
  s.sameBut_setReg hx b

theorem sameBut_memWrite {a : Word} (ha : memAddr a ∈ cells) (b : Byte) :
    SameBut s (s.memWrite a b) parts regs cells :=
  { SameBut.refl s parts regs cells with
    mem := fun c hc => by
      have hne : memAddr a ≠ memAddr c := fun e => hc (e ▸ ha)
      simp [hne] }

theorem sameBut_storeBcd (b : Byte) : SameBut s (s.storeBcd b) parts regs (bcdCells s) :=
  ((s.sameBut_memWrite (by simp [bcdCells]) _).trans (sameBut_memWrite _ (by simp [bcdCells]) _)).trans
    (sameBut_memWrite _ (by simp [bcdCells]) _)

theorem sameBut_storeBlock {rs : List Reg} (h : ∀ k ∈ rs, memAddr (indexed s.i k.val) ∈ cells) :
    SameBut s (s.storeBlock rs) parts regs cells := by
  induction rs generalizing s with
  | nil => exact .refl ..
  | cons k rs ih =>
    exact (s.sameBut_memWrite (h k (by simp)) (s.reg k)).trans
      (ih (s.memWrite (indexed s.i k.val) (s.reg k)) fun j hj => h j (by simp [hj]))

theorem sameBut_loadBlock (rs : List Reg) : SameBut s (s.loadBlock rs) parts rs cells :=
  SameBut.foldl (fun t _ hk => t.sameBut_setReg hk _) s

/-! ### The other parts -/

theorem sameBut_setPc (hp : Part.pc ∈ parts) (a : Word) : SameBut s (s.setPc a) parts regs cells :=
  { SameBut.refl s parts regs cells with pc := fun h => absurd hp h }

theorem sameBut_skipIf (hp : Part.pc ∈ parts) (c : Bool) : SameBut s (s.skipIf c) parts regs cells :=
  s.skipIf_eq c ▸ s.sameBut_setPc hp _

theorem sameBut_setI (hp : Part.i ∈ parts) (a : Word) : SameBut s (s.setI a) parts regs cells :=
  { SameBut.refl s parts regs cells with i := fun h => absurd hp h }

theorem sameBut_setDt (hp : Part.dt ∈ parts) (b : Byte) : SameBut s { s with dt := b } parts regs cells :=
  { SameBut.refl s parts regs cells with dt := fun h => absurd hp h }

theorem sameBut_setSt (hp : Part.st ∈ parts) (b : Byte) : SameBut s { s with st := b } parts regs cells :=
  { SameBut.refl s parts regs cells with st := fun h => absurd hp h }

/-- What CALL and RET leave when they do not fault. -/
theorem sameBut_setStackAndPc (hp : Part.pc ∈ parts) (hk : Part.stack ∈ parts) (a : Word) (d : Fin 17)
    (k : Vector Word 16) : SameBut s { s with pc := a, sp := d, stack := k } parts regs cells :=
  { SameBut.refl s parts regs cells with pc := fun h => absurd hp h, stack := fun h => absurd hk h }

theorem sameBut_raiseControlFlowFault (hp : Part.fault ∈ parts) (c : FlowCause) :
    SameBut s (s.raiseControlFlowFault c) parts regs cells :=
  { SameBut.refl s parts regs cells with fault := fun h => absurd hp h }

theorem sameBut_emitDiagnostic (hp : Part.diags ∈ parts) (w : Word) :
    SameBut s (s.emitDiagnostic w) parts regs cells :=
  { SameBut.refl s parts regs cells with diags := fun h => absurd hp h }

theorem sameBut_countDraw (hp : Part.draws ∈ parts) : SameBut s s.countDraw parts regs cells :=
  { SameBut.refl s parts regs cells with draws := fun h => absurd hp h }

/-! ### The display -/

theorem sameBut_setDisp (hp : Part.disp ∈ parts) (d : Vector Row 32) :
    SameBut s { s with disp := d } parts regs cells :=
  { SameBut.refl s parts regs cells with disp := fun h => absurd hp h }

theorem sameBut_blitPixel (hp : Part.disp ∈ parts) (hx : vf ∈ regs) (p : Fin 64 × Fin 32) :
    SameBut s (s.blitPixel p) parts regs cells := by
  unfold blitPixel
  split
  · exact (s.sameBut_setFlag hx 1).trans (sameBut_setDisp _ hp _)
  · exact s.sameBut_setDisp hp _

theorem sameBut_drawSprite (hp : Part.disp ∈ parts) (hx : vf ∈ regs) (x0 y0 n : Nat) :
    SameBut s (s.drawSprite x0 y0 n) parts regs cells := by
  rw [drawSprite_pixels]
  exact (s.sameBut_setFlag hx 0).trans (SameBut.foldl (fun t p _ => t.sameBut_blitPixel hp hx p) _)

end State

/-! ### Instructions -/

/-- The frame of every instruction. -/
theorem exec_sameBut {i : Instr} (h : exec i s = .next t) :
    SameBut s t (partsWritten i) (registersWritten i) (cellsWritten s i) := by
  cases i with
  | nop => cases h; exact .refl ..
  | unrecognized w => cases h; exact s.sameBut_emitDiagnostic (by simp [partsWritten]) w
  | ret x =>
    by_cases hsp : s.sp.val = 0
    · rw [exec_ret_of_zero s x hsp] at h
      cases h
      exact s.sameBut_raiseControlFlowFault (by simp [partsWritten]) _
    · rw [exec_ret_of_pos s x hsp] at h
      cases h
      exact s.sameBut_setStackAndPc (by simp [partsWritten]) (by simp [partsWritten]) _ _ _
  | call nnn =>
    by_cases hsp : s.sp.val < 16
    · rw [exec_call_of_lt s nnn hsp] at h
      cases h
      exact s.sameBut_setStackAndPc (by simp [partsWritten]) (by simp [partsWritten]) _ _ _
    · rw [exec_call_of_full s nnn hsp] at h
      cases h
      exact s.sameBut_raiseControlFlowFault (by simp [partsWritten]) _
  | jp | jpV0 => cases h; exact s.sameBut_setPc (by simp [partsWritten]) _
  | seImm | sneImm | seReg | sneReg | skp | sknp => cases h; exact s.sameBut_skipIf (by simp [partsWritten]) _
  | wkey x =>
    cases h
    split
    · exact .refl ..
    · exact s.sameBut_setPc (by simp [partsWritten]) _
  | ldImm | addImm | ldReg | orReg | andReg | xorReg | ldVxDT =>
    cases h; exact s.sameBut_setReg (by simp [registersWritten]) _
  | addReg | subReg | subn =>
    cases h
    exact .trans (s.sameBut_setReg (by simp [registersWritten]) _)
      (State.sameBut_setReg _ (by simp [registersWritten]) _)
  | shr | shl =>
    cases h
    exact .trans (s.sameBut_setReg (by simp [registersWritten]) _) <|
      .trans (State.sameBut_setFlag _ (by simp [registersWritten]) _)
        (State.sameBut_setReg _ (by simp [registersWritten]) _)
  | rnd x nn =>
    cases h
    exact .trans (s.sameBut_countDraw (by simp [partsWritten]))
      (State.sameBut_setReg _ (by simp [registersWritten]) _)
  | ldI nnn => cases h; exact s.sameBut_setI (by simp [partsWritten]) _
  | addI x =>
    cases h
    exact .trans (s.sameBut_setFlag (by simp [registersWritten]) _) (State.sameBut_setI _ (by simp [partsWritten]) _)
  | ldF x =>
    simp only [exec, execLdF] at h
    split at h <;> cases h
    · exact s.sameBut_setI (by simp [partsWritten]) _
    · exact s.sameBut_emitDiagnostic (by simp [partsWritten]) _
  | ldB x => cases h; exact s.sameBut_storeBcd _
  | storeRegs x =>
    cases h
    exact .trans (s.sameBut_storeBlock fun k hk => List.mem_map.2 ⟨k, hk, rfl⟩)
      (State.sameBut_setI _ (by simp [partsWritten]) _)
  | loadRegs x =>
    cases h
    exact .trans (s.sameBut_loadBlock (blockRegs x)) (State.sameBut_setI _ (by simp [partsWritten]) _)
  | cls x => cases h; exact s.sameBut_setDisp (by simp [partsWritten]) _
  | drw x y n =>
    cases h
    exact s.sameBut_drawSprite (by simp [partsWritten]) (by simp [registersWritten]) _ _ _
  | ldDT x => cases h; exact s.sameBut_setDt (by simp [partsWritten]) _
  | ldST x => cases h; exact s.sameBut_setSt (by simp [partsWritten]) _

/-- Settles O18: the frame of every instruction, composed from the frames of its operations. -/
theorem instructionsWriteOnlyTheListedState : Obligations.InstructionsWriteOnlyTheListedState :=
  fun _ _ _ h => exec_sameBut h

end Sys2Proof.Machine
end

section
/-! SUPPORT. What a move of each agent leaves unchanged (10_state.md R29, R34). -/

namespace Sys2Proof.Machine

variable {s t : State}

/-- A timer tick writes DT and ST only (60_exceptions.md R129). -/
theorem timerTick_eq (s : State) : timerTick s = { s with dt := (timerTick s).dt, st := (timerTick s).st } := by
  unfold timerTick
  split <;> rfl

/-! ### Construction parameters -/

theorem engineStep_cfg (h : engineStep s = .next t) : t.cfg = s.cfg := by
  obtain ⟨-, -, hexec⟩ := engineStep_next s h
  exact (exec_sameBut hexec).cfg

theorem act_cfg {a : Action} (h : act a s = .next t) : t.cfg = s.cfg := by
  cases a with
  | engineStep =>
    simp only [act] at h
    split at h
    · exact engineStep_cfg h
    · cases h; rfl
  | timerTick => cases h; rw [timerTick_eq]
  | writeKeys m => cases h; rfl
  | shutdown => cases h; rfl

/-- Settles O11: the engine's instructions keep the parameters by their frame, the other agents by what they write. -/
theorem parametersAreNeverWritten : Obligations.ParametersAreNeverWritten := by
  intro s t h
  cases hagenda : s.agenda with
  | nil => exact engineStep_cfg (step_of_agenda_nil s hagenda ▸ h)
  | cons a rest => exact act_cfg (s := { s with agenda := rest }) (step_of_agenda_cons s hagenda ▸ h)

/-! ### Who writes what -/

/-- FX15 alone writes DT. -/
theorem dt_mem_partsWritten {i : Instr} : Part.dt ∈ partsWritten i ↔ ∃ x, i = .ldDT x := by
  cases i <;> simp [partsWritten]

/-- FX18 alone writes ST. -/
theorem st_mem_partsWritten {i : Instr} : Part.st ∈ partsWritten i ↔ ∃ x, i = .ldST x := by
  cases i <;> simp [partsWritten]

/-- What a move of the timer driver or the host can leave (R34): the timers after a tick, KEYS after the host's write,
the running bit after a shutdown. -/
theorem act_eq_of_ne_engineStep {a : Action} (ha : a ≠ .engineStep) (h : act a s = .next t) :
    t = { s with dt := t.dt, st := t.st, keys := t.keys, running := t.running } ∧
      (a ≠ .timerTick → t.dt = s.dt ∧ t.st = s.st) ∧ ((∀ m, a ≠ .writeKeys m) → t.keys = s.keys) := by
  cases a with
  | engineStep => exact absurd rfl ha
  | timerTick =>
    cases h
    rw [timerTick_eq]
    exact ⟨rfl, fun hne => absurd rfl hne, fun _ => rfl⟩
  | writeKeys m => cases h; exact ⟨rfl, fun _ => ⟨rfl, rfl⟩, fun hne => absurd rfl (hne m)⟩
  | shutdown => cases h; exact ⟨rfl, fun _ => ⟨rfl, rfl⟩, fun _ => rfl⟩

/-- Settles O12: the moves that are not the engine's by `act_eq_of_ne_engineStep`, the instructions by their frame. -/
theorem agentsWriteOnlyTheirState : Obligations.AgentsWriteOnlyTheirState := by
  refine ⟨fun s t a rest hagenda ha h => ?_, fun i s t h => ?_, fun s => ⟨rfl, rfl⟩⟩
  · rw [step_of_agenda_cons s hagenda] at h
    obtain ⟨ht, htimers, hkeys⟩ := act_eq_of_ne_engineStep ha h
    rw [ht]
    exact ⟨rfl, rfl, rfl, rfl, rfl, rfl, rfl, rfl, rfl, htimers, hkeys⟩
  · have hframe := exec_sameBut h
    exact ⟨hframe.keys, fun hi => hframe.dt fun hmem => (dt_mem_partsWritten.1 hmem).elim hi,
      fun hi => hframe.st fun hmem => (st_mem_partsWritten.1 hmem).elim hi⟩

end Sys2Proof.Machine
end

section
/-! SUPPORT. Which of KEYS, ST, SP and STACK an instruction reads or writes (10_state.md R22, R24, R28): rewriting these
parts commutes with every operation that touches none of those rewritten. -/

namespace Sys2Proof.Machine

/-- A rewriting of the parts that few instructions touch; a part not mentioned stays. -/
structure PartMap where
  keys  : Word → Word := id
  st    : Byte → Byte := id
  sp    : Fin 17 → Fin 17 := id
  stack : Vector Word 16 → Vector Word 16 := id

/-- The same machine with these parts rewritten by `g`. -/
def State.mapParts (g : PartMap) (s : State) : State :=
  { s with keys := g.keys s.keys, st := g.st s.st, sp := g.sp s.sp, stack := g.stack s.stack }

/-- `g` leaves every part it can rewrite that `i` touches: KEYS for the three instructions of 40_control_unit.md R76, ST for
FX18, SP and STACK for CALL and RET. -/
structure KeepsPartsOf (i : Instr) (g : PartMap) : Prop where
  keys : readsKeys i = true → g.keys = id
  st   : ∀ x, i = .ldST x → g.st = id
  ret  : ∀ x, i = .ret x → g.sp = id ∧ g.stack = id
  call : ∀ n, i = .call n → g.sp = id ∧ g.stack = id

variable {g : PartMap}

namespace State

variable (s : State)

/-! ### Operations commute with it -/

theorem setFlag_mapParts (b : Byte) : (s.mapParts g).setFlag b = (s.setFlag b).mapParts g := rfl

theorem skipIf_mapParts (c : Bool) : (s.mapParts g).skipIf c = (s.skipIf c).mapParts g := by
  rw [skipIf_eq, skipIf_eq]; rfl

theorem storeBlock_mapParts (rs : List Reg) : (s.mapParts g).storeBlock rs = (s.storeBlock rs).mapParts g :=
  List.foldl_hom (mapParts g) fun _ _ => rfl

theorem loadBlock_mapParts (rs : List Reg) : (s.mapParts g).loadBlock rs = (s.loadBlock rs).mapParts g :=
  List.foldl_hom (mapParts g) fun _ _ => rfl

theorem blitPixel_mapParts (p : Fin 64 × Fin 32) : (s.mapParts g).blitPixel p = (s.blitPixel p).mapParts g := by
  have hpixel : (s.mapParts g).pixel p.1 p.2 = s.pixel p.1 p.2 := rfl
  unfold blitPixel
  rw [hpixel]
  split <;> rfl

theorem drawSprite_mapParts (x0 y0 n : Nat) :
    (s.mapParts g).drawSprite x0 y0 n = (s.drawSprite x0 y0 n).mapParts g := by
  have hpixels : (s.mapParts g).spritePixels x0 y0 n = s.spritePixels x0 y0 n := rfl
  rw [drawSprite_pixels, drawSprite_pixels, hpixels, setFlag_mapParts]
  exact List.foldl_hom (mapParts g) fun t p => blitPixel_mapParts t p

end State

/-! ### Instructions -/

/-- Rewriting parts that an instruction does not touch changes nothing of what it does. -/
theorem exec_mapParts {i : Instr} (h : KeepsPartsOf i g) (s : State) :
    exec i (s.mapParts g) = mapNext (State.mapParts g) (exec i s) := by
  obtain ⟨keys, st, sp, stack⟩ := g
  cases i with
  | ret x =>
    obtain ⟨rfl, rfl⟩ : sp = id ∧ stack = id := h.ret x rfl
    by_cases hsp : s.sp.val = 0
    · rw [exec_ret_of_zero s x hsp, exec_ret_of_zero (s.mapParts ⟨keys, st, id, id⟩) x hsp]; rfl
    · rw [exec_ret_of_pos s x hsp, exec_ret_of_pos (s.mapParts ⟨keys, st, id, id⟩) x hsp]; rfl
  | call nnn =>
    obtain ⟨rfl, rfl⟩ : sp = id ∧ stack = id := h.call nnn rfl
    by_cases hsp : s.sp.val < 16
    · rw [exec_call_of_lt s nnn hsp, exec_call_of_lt (s.mapParts ⟨keys, st, id, id⟩) nnn hsp]; rfl
    · rw [exec_call_of_full s nnn hsp, exec_call_of_full (s.mapParts ⟨keys, st, id, id⟩) nnn hsp]; rfl
  | seImm | sneImm | seReg | sneReg => exact congrArg _ (s.skipIf_mapParts _)
  | skp | sknp =>
    obtain rfl : keys = id := h.keys rfl
    exact congrArg _ (s.skipIf_mapParts _)
  | wkey x =>
    obtain rfl : keys = id := h.keys rfl
    simp only [exec, execWkey, mapNext, apply_ite (State.mapParts _)]; rfl
  | ldF x =>
    have hcfg : (s.mapParts ⟨keys, st, sp, stack⟩).cfg = s.cfg := rfl
    simp only [exec, execLdF, hcfg]
    split <;> rfl
  | storeRegs x => simp only [exec, execStoreRegs, s.storeBlock_mapParts]; rfl
  | loadRegs x => simp only [exec, execLoadRegs, s.loadBlock_mapParts]; rfl
  | drw x y n => exact congrArg _ (s.drawSprite_mapParts _ _ _)
  | ldST x =>
    obtain rfl : st = id := h.st x rfl
    rfl
  | _ => rfl

/-! ### The sound timer -/

/-- Settles O14: replacing ST rewrites a part that FX18 alone touches. -/
theorem noInstructionReadsSoundTimer : Obligations.NoInstructionReadsSoundTimer := by
  intro i s b hi
  have hkeeps : KeepsPartsOf i { st := fun _ => b } :=
    ⟨fun _ => rfl, fun x hx => absurd hx (hi x), fun _ _ => ⟨rfl, rfl⟩, fun _ _ => ⟨rfl, rfl⟩⟩
  exact exec_mapParts hkeeps s

/-! ### The call stack -/

/-- A rewriting of SP and STACK alone leaves every part that an instruction other than CALL and RET touches. -/
theorem keepsPartsOf_stack {i : Instr} (hret : ∀ x, i ≠ .ret x) (hcall : ∀ n, i ≠ .call n) (sp : Fin 17 → Fin 17)
    (stack : Vector Word 16 → Vector Word 16) : KeepsPartsOf i { sp := sp, stack := stack } :=
  ⟨fun _ => rfl, fun _ _ => rfl, fun x hx => absurd hx (hret x), fun n hn => absurd hn (hcall n)⟩

/-- `t'` is `t` but for stack entries at `t.sp` and above, which are stale (R24). -/
structure AgreesButStale (t' t : State) : Prop where
  rest    : { t' with stack := t.stack } = t
  entries : ∀ j : Fin 16, j.val < t.sp.val → t'.stack[j.val] = t.stack[j.val]

/-- `s` with the entry STACK[k] replaced. -/
def State.setEntry (s : State) (k : Fin 16) (a : Word) : State := { s with stack := s.stack.set k.val a }

/-- Replacing a stale entry is not seen. -/
theorem agreesButStale_setEntry {s : State} {k : Fin 16} (hk : s.sp.val ≤ k.val) (a : Word) :
    AgreesButStale (s.setEntry k a) s where
  rest := rfl
  entries j hj := Vector.getElem_set_ne k.isLt j.isLt (by omega)

theorem exec_ret_setEntry {s t : State} {k : Fin 16} (hk : s.sp.val ≤ k.val) (a : Word) (x : Reg)
    (h : exec (.ret x) s = .next t) : ∃ t', exec (.ret x) (s.setEntry k a) = .next t' ∧ AgreesButStale t' t := by
  by_cases hsp : s.sp.val = 0
  · rw [exec_ret_of_zero s x hsp] at h
    cases h
    exact ⟨_, exec_ret_of_zero (s.setEntry k a) x hsp, rfl, (agreesButStale_setEntry hk a).entries⟩
  · rw [exec_ret_of_pos s x hsp] at h
    cases h
    have hpopped : (s.setEntry k a).stack[s.sp.val - 1]'(by omega) = s.stack[s.sp.val - 1]'(by omega) :=
      (agreesButStale_setEntry hk a).entries ⟨s.sp.val - 1, by omega⟩ (by simp; omega)
    refine ⟨_, exec_ret_of_pos (s.setEntry k a) x hsp, ?_, fun j hj => ?_⟩
    · exact congrArg (fun pc => ({ s with pc := pc, sp := ⟨s.sp.val - 1, by omega⟩ } : State)) hpopped
    · exact (agreesButStale_setEntry hk a).entries j (by simp at hj; omega)

theorem exec_call_setEntry {s t : State} {k : Fin 16} (hk : s.sp.val ≤ k.val) (a : Word) (nnn : BitVec 12)
    (h : exec (.call nnn) s = .next t) : ∃ t', exec (.call nnn) (s.setEntry k a) = .next t' ∧ AgreesButStale t' t := by
  have hsp : s.sp.val < 16 := by omega
  rw [exec_call_of_lt s nnn hsp] at h
  cases h
  refine ⟨_, exec_call_of_lt (s.setEntry k a) nnn hsp, rfl, fun j hj => ?_⟩
  show ((s.setEntry k a).stack.set s.sp.val s.pc hsp)[j.val] = (s.stack.set s.sp.val s.pc hsp)[j.val]
  by_cases hj' : s.sp.val = j.val
  · simp [hj']
  · rw [Vector.getElem_set_ne _ _ hj', Vector.getElem_set_ne _ _ hj']
    exact (agreesButStale_setEntry hk a).entries j (by simp at hj; omega)

/-- CALL and RET alone write SP and STACK. -/
theorem stack_mem_partsWritten {i : Instr} :
    Part.stack ∈ partsWritten i ↔ (∃ x, i = .ret x) ∨ ∃ n, i = .call n := by
  cases i <;> simp [partsWritten]

/-- A stale entry replaced before an instruction changes nothing after it but stale entries. -/
theorem exec_setEntry {i : Instr} {s t : State} {k : Fin 16} (hk : s.sp.val ≤ k.val) (a : Word)
    (h : exec i s = .next t) : ∃ t', exec i (s.setEntry k a) = .next t' ∧ AgreesButStale t' t := by
  by_cases hret : ∃ x, i = .ret x
  · obtain ⟨x, rfl⟩ := hret
    exact exec_ret_setEntry hk a x h
  by_cases hcall : ∃ n, i = .call n
  · obtain ⟨n, rfl⟩ := hcall
    exact exec_call_setEntry hk a n h
  have hmap : exec i (s.setEntry k a) = mapNext (State.setEntry · k a) (exec i s) :=
    exec_mapParts (keepsPartsOf_stack (not_exists.1 hret) (not_exists.1 hcall) id (·.set k.val a)) s
  have hsp : t.sp = s.sp := ((exec_sameBut h).stack (by simp [stack_mem_partsWritten, hret, hcall])).1
  exact ⟨t.setEntry k a, by rw [hmap, h]; rfl, agreesButStale_setEntry (by omega) a⟩

/-- Settles O17: SP and STACK are parts that CALL and RET alone touch, and neither of these reads a stale entry. -/
theorem onlyCallAndRetTouchTheStack : Obligations.OnlyCallAndRetTouchTheStack := by
  refine ⟨fun i s d k hret hcall => ?_, fun i s t k a hk h => ?_⟩
  · exact exec_mapParts (keepsPartsOf_stack hret hcall (fun _ => d) (fun _ => k)) s
  · obtain ⟨t', hexec, hagree⟩ := exec_setEntry hk a h
    exact ⟨t', hexec, hagree.rest, hagree.entries⟩

end Sys2Proof.Machine
end

section
/-! SUPPORT. The reset state (10_state.md R33). -/

namespace Sys2Proof.Machine

/-- Where no cell is listed, the font's region reads as the font (R27). -/
theorem Memory.initialByte_font (cfg : Config) (k : Fin 80) :
    Memory.initialByte cfg (cfg.fontBase.val + k.val) = cfg.fontData[k.val] := by
  simp [Memory.initialByte, Memory.fontByte]

/-- Settles O10: after reset no cell is listed and no fault stands. -/
theorem resetMeetsInvariant : Obligations.ResetMeetsInvariant where
  memory := Memory.wf_nil
  overflow := nofun
  underflow := nofun

/-- Settles O53: the fields by definition, the font as what unlisted memory reads as. -/
theorem resetValuesOfTheSpec : Obligations.ResetValuesOfTheSpec :=
  ⟨rfl, rfl, rfl, rfl, rfl, rfl, Memory.initialByte_font Config.default⟩

end Sys2Proof.Machine
end

section
/-! SUPPORT. The machine's invariant: memory stays in canonical form (20_memory.md R36) and the fault status tells the truth
(60_exceptions.md R117, R119), whichever agent moves. -/

namespace Sys2Proof.Machine

variable {s t : State}

/-! ### Canonical memory -/

/-- Every instruction keeps the canonical form: FX33 and FX55 write memory by `Memory.write`, the others not at all. -/
theorem exec_wf {i : Instr} (hwf : Memory.wf s.cfg s.mem) (h : exec i s = .next t) : Memory.wf t.cfg t.mem := by
  cases i with
  | ldB x =>
    cases h
    exact Memory.wf_write (Memory.wf_write (Memory.wf_write hwf (memAddr_lt _)) (memAddr_lt _)) (memAddr_lt _)
  | storeRegs x => cases h; exact s.wf_storeBlock (blockRegs x) hwf
  | loadRegs x => cases h; simpa using hwf
  | drw x y n => cases h; simpa using hwf
  | ret x =>
    by_cases hsp : s.sp.val = 0
    · rw [exec_ret_of_zero s x hsp] at h; cases h; exact hwf
    · rw [exec_ret_of_pos s x hsp] at h; cases h; exact hwf
  | call nnn =>
    by_cases hsp : s.sp.val < 16
    · rw [exec_call_of_lt s nnn hsp] at h; cases h; exact hwf
    · rw [exec_call_of_full s nnn hsp] at h; cases h; exact hwf
  | seImm | sneImm | seReg | sneReg | skp | sknp => cases h; rw [State.skipIf_eq]; exact hwf
  | wkey x => cases h; split <;> exact hwf
  | ldF x => simp only [exec, execLdF] at h; split at h <;> cases h <;> exact hwf
  | _ => cases h; exact hwf

/-! ### A truthful fault status -/

/-- With FAULT = None nothing but the canonical form is asked. -/
theorem Inv.of_fault_none (hwf : Memory.wf s.cfg s.mem) (hfault : s.fault = none) : Inv s where
  memory := hwf
  overflow h := by simp [hfault] at h
  underflow h := by simp [hfault] at h

/-- CALL and RET alone write the fault status. -/
theorem fault_mem_partsWritten {i : Instr} :
    Part.fault ∈ partsWritten i ↔ (∃ x, i = .ret x) ∨ ∃ n, i = .call n := by
  cases i <;> simp [partsWritten]

/-- An instruction run with FAULT = None leaves the invariant: RET and CALL fault at depth 0 and 16 with PC two past the
address they record, and no other instruction faults. -/
theorem exec_inv {i : Instr} (hwf : Memory.wf s.cfg s.mem) (hfault : s.fault = none) (h : exec i s = .next t) :
    Inv t := by
  have hwf' := exec_wf hwf h
  by_cases hret : ∃ x, i = .ret x
  · obtain ⟨x, rfl⟩ := hret
    by_cases hsp : s.sp.val = 0
    · rw [exec_ret_of_zero s x hsp] at h
      cases h
      exact ⟨hwf', nofun, fun _ => ⟨hsp, (BitVec.sub_add_cancel s.pc 2).symm⟩⟩
    · rw [exec_ret_of_pos s x hsp] at h
      cases h
      exact .of_fault_none hwf' hfault
  by_cases hcall : ∃ n, i = .call n
  · obtain ⟨nnn, rfl⟩ := hcall
    by_cases hsp : s.sp.val < 16
    · rw [exec_call_of_lt s nnn hsp] at h
      cases h
      exact .of_fault_none hwf' hfault
    · rw [exec_call_of_full s nnn hsp] at h
      cases h
      have hfull : s.sp.val = 16 := by omega
      exact ⟨hwf', fun _ => ⟨hfull, (BitVec.sub_add_cancel s.pc 2).symm⟩, nofun⟩
  have hkept : t.fault = s.fault := ((exec_sameBut h).fault (by simp [fault_mem_partsWritten, hret, hcall])).1
  exact .of_fault_none hwf' (hkept.trans hfault)

/-! ### Moves -/

theorem engineStep_inv (hinv : Inv s) (h : engineStep s = .next t) : Inv t := by
  obtain ⟨-, hfault, hexec⟩ := engineStep_next s h
  exact exec_inv (s := s.advancePc) hinv.memory hfault hexec

/-- A move of the timer driver or the host touches nothing that the invariant speaks of. -/
theorem act_inv {a : Action} (hinv : Inv s) (h : act a s = .next t) : Inv t := by
  by_cases ha : a = .engineStep
  · subst ha
    simp only [act] at h
    split at h
    · exact engineStep_inv hinv h
    · cases h; exact hinv
  · rw [(act_eq_of_ne_engineStep ha h).1]
    exact ⟨hinv.memory, hinv.overflow, hinv.underflow⟩

/-- Settles O9: the engine moves with FAULT = None only, and the other agents leave what the invariant speaks of. -/
theorem stepKeepsInvariant : Obligations.StepKeepsInvariant := by
  intro s t hinv h
  cases hagenda : s.agenda with
  | nil => exact engineStep_inv hinv (step_of_agenda_nil s hagenda ▸ h)
  | cons a rest =>
    have hinv' : Inv { s with agenda := rest } := ⟨hinv.memory, hinv.overflow, hinv.underflow⟩
    exact act_inv hinv' (step_of_agenda_cons s hagenda ▸ h)

end Sys2Proof.Machine
end

section
/-! SUPPORT. Addresses name bytes modulo the space (20_memory.md R38, R43), and what a fetch reads after a block store
(R49). -/

namespace Sys2Proof.Machine

namespace State

variable (s : State)

/-- Two addresses that name one cell read the same. -/
theorem memRead_congr {a c : Word} (h : memAddr a = memAddr c) : s.memRead a = s.memRead c := by
  rw [memRead, memRead, h]

/-- Two addresses that name one cell write the same. -/
theorem memWrite_congr {a c : Word} (h : memAddr a = memAddr c) (b : Byte) : s.memWrite a b = s.memWrite c b := by
  rw [memWrite, memWrite, h]

/-- A word fetched as a number: the byte at PC is the more significant (R40). -/
theorem toNat_fetchWord : s.fetchWord.toNat = (s.memRead s.pc).toNat * 256 + (s.memRead (s.pc + 1)).toNat := by
  simp only [fetchWord, wordOfBytes, BitVec.toNat_ofNat]
  omega

end State

/-- Settles O57: reads and writes see an address through `memAddr` only. -/
theorem addressesReduceModuloTheSpace : Obligations.AddressesReduceModuloTheSpace := by
  intro s a c b
  refine ⟨fun h => ⟨?_, s.memRead_congr h, s.memWrite_congr h b⟩, fun h => ?_⟩
  · exact (s.memRead_memWrite a c b).trans (if_pos h)
  · exact (s.memRead_memWrite a c b).trans (if_neg h)

/-- The byte FX55 leaves at an address that names the cell of a register it stores. -/
theorem memRead_of_exec_storeRegs {s t : State} {x k : Reg} {a : Word} (h : exec (.storeRegs x) s = .next t)
    (hk : k ≤ x) (ha : memAddr a = memAddr (indexed s.i k.val)) : t.memRead a = s.reg k := by
  cases h
  rw [State.memRead_setI, State.memRead_congr _ ha]
  exact s.memRead_storeBlock_same (nodup_blockRegs x) (mem_blockRegs.2 hk)

/-- If two addresses name one cell, so do the next two. -/
theorem memAddr_add_one_of_eq {a i : Word} {j k : Nat} (hjk : j = k + 1) (h : memAddr a = memAddr (indexed i k)) :
    memAddr (a + 1) = memAddr (indexed i j) := by
  have hone : (1 : Word).toNat = 1 := rfl
  simp only [memAddr, indexed, BitVec.toNat_add, BitVec.toNat_ofNat, hone] at h ⊢
  omega

/-- Settles O56: the two bytes of the fetch are the cells of V[k] and V[k + 1], which FX55 has just stored. -/
theorem storedWordIsFetchedNext : Obligations.StoredWordIsFetchedNext := by
  intro s t x k j h hk hj hjk haddr
  have hpc : t.pc = s.pc := (exec_sameBut h).pc (by simp [partsWritten])
  have hhigh : t.memRead s.pc = s.reg k := memRead_of_exec_storeRegs h hk haddr
  have hlow : t.memRead (s.pc + 1) = s.reg j := memRead_of_exec_storeRegs h hj (memAddr_add_one_of_eq hjk haddr)
  rw [t.toNat_fetchWord, hpc, hhigh, hlow]

end Sys2Proof.Machine
end

section
/-! SUPPORT. A timer written by the engine and then ticked (20_memory.md R51). -/

namespace Sys2Proof.Machine

/-- A tick of a running core counts both timers down. -/
theorem timerTick_of_running {s : State} (h : s.running = true) :
    timerTick s = { s with dt := countDown s.dt, st := countDown s.st } := if_pos h

/-- Settles O49: the tick counts down the value the write left. -/
theorem timerWriteIsNotLost : Obligations.TimerWriteIsNotLost := by
  intro s x hrunning
  exact ⟨⟨{ s with dt := s.reg x }, rfl, by simp [timerTick_of_running, hrunning]⟩,
    ⟨{ s with st := s.reg x }, rfl, by simp [timerTick_of_running, hrunning]⟩⟩

end Sys2Proof.Machine
end

section
/-! SUPPORT. The encoder and the decoder are inverse to each other (30_encoding.md R55, R59, R62, R69). -/

namespace Sys2Proof

variable {w : Word}

/-! ### A word from its fields -/

/-- A word is the one with its own family, X, Y and N. -/
theorem wordXYN_fields {f n : Nat} (hf : (familyOf w).toNat = f) (hn : (fieldN w).toNat = n) :
    wordXYN f (fieldX w) (fieldY w) n = w := by
  subst hf hn
  apply BitVec.eq_of_toNat_eq
  rw [toNat_wordXYN (familyOf w).isLt (fieldN w).isLt, toNat_familyOf, val_fieldX, val_fieldY, toNat_fieldN]
  omega

/-- A word is the one with its own family, X and NN. -/
theorem wordXNN_fields {f nn : Nat} (hf : (familyOf w).toNat = f) (hnn : (fieldNN w).toNat = nn) :
    wordXNN f (fieldX w) nn = w := by
  subst hf hnn
  apply BitVec.eq_of_toNat_eq
  rw [toNat_wordXNN (familyOf w).isLt (fieldNN w).isLt, toNat_familyOf, val_fieldX, toNat_fieldNN]
  omega

/-- A word is the one with its own family and NNN. -/
theorem wordNNN_fields {f : Nat} (hf : (familyOf w).toNat = f) : wordNNN f (fieldNNN w) = w := by
  subst hf
  apply BitVec.eq_of_toNat_eq
  rw [toNat_wordNNN (familyOf w).isLt, toNat_familyOf, toNat_fieldNNN]
  omega

/-! ### Encoding what was decoded -/

theorem encode_decodeFamily0 (hf : familyOf w = 0x0) : encode (decodeFamily0 w) = w := by
  have hfn := congrArg BitVec.toNat hf
  unfold decodeFamily0
  split_ifs with hzero hcls hret
  · exact hzero.symm
  · exact wordXNN_fields hfn (congrArg BitVec.toNat hcls)
  · exact wordXNN_fields hfn (congrArg BitVec.toNat hret)
  · rfl

theorem encode_decodeFamily8 (hf : familyOf w = 0x8) : encode (decodeFamily8 w) = w := by
  unfold decodeFamily8
  split
  case h_1 hn | h_2 hn | h_3 hn | h_4 hn | h_5 hn | h_6 hn | h_7 hn | h_8 hn | h_9 hn =>
    exact wordXYN_fields (congrArg BitVec.toNat hf) (congrArg BitVec.toNat hn)
  case h_10 => rfl

theorem encode_decodeFamilyE (hf : familyOf w = 0xE) : encode (decodeFamilyE w) = w := by
  unfold decodeFamilyE
  split
  case h_1 hnn | h_2 hnn =>
    exact wordXNN_fields (congrArg BitVec.toNat hf) (congrArg BitVec.toNat hnn)
  case h_3 => rfl

theorem encode_decodeFamilyF (hf : familyOf w = 0xF) : encode (decodeFamilyF w) = w := by
  unfold decodeFamilyF
  split
  case h_1 hnn | h_2 hnn | h_3 hnn | h_4 hnn | h_5 hnn | h_6 hnn | h_7 hnn | h_8 hnn | h_9 hnn =>
    exact wordXNN_fields (congrArg BitVec.toNat hf) (congrArg BitVec.toNat hnn)
  case h_10 => rfl

/-- No bit of a word is lost by decoding it (R69). -/
theorem encode_decode (w : Word) : encode (decode w) = w := by
  unfold decode
  split
  case h_1 hf => exact encode_decodeFamily0 hf
  case h_9 hf => exact encode_decodeFamily8 hf
  case h_15 hf => exact encode_decodeFamilyE hf
  case h_16 => exact encode_decodeFamilyF (family_last _ ‹_› ‹_› ‹_› ‹_› ‹_› ‹_› ‹_› ‹_› ‹_› ‹_› ‹_› ‹_› ‹_› ‹_› ‹_›)
  case h_2 hf | h_3 hf | h_11 hf | h_12 hf => exact wordNNN_fields (congrArg BitVec.toNat hf)
  case h_4 hf | h_5 hf | h_7 hf | h_8 hf | h_13 hf => exact wordXNN_fields (congrArg BitVec.toNat hf) rfl
  case h_6 hf | h_10 hf | h_14 hf => exact wordXYN_fields (congrArg BitVec.toNat hf) rfl

/-- An unrecognized word is held whole. -/
theorem eq_of_decode_eq_unrecognized {v : Word} (h : decode w = .unrecognized v) : v = w := by
  have hencode := encode_decode w
  rwa [h] at hencode

/-! ### The unrecognized words (R62) -/

/-- The keys of family 0x8 that no row has. -/
theorem mem_keysLeft8 : ∀ n : BitVec 4, n ∈ ([0x8, 0x9, 0xA, 0xB, 0xC, 0xD, 0xF] : List (BitVec 4)) ↔
    n ∉ ([0x0, 0x1, 0x2, 0x3, 0x4, 0x5, 0x6, 0x7, 0xE] : List (BitVec 4)) := by decide

theorem decodeFamily0_eq_unrecognized_iff :
    decodeFamily0 w = .unrecognized w ↔ w ≠ 0x0000 ∧ fieldNN w ≠ 0xE0 ∧ fieldNN w ≠ 0xEE := by
  unfold decodeFamily0
  split_ifs with hzero hcls hret
  · simp [hzero]
  · simp [hcls]
  · simp [hret]
  · exact iff_of_true rfl ⟨hzero, hcls, hret⟩

theorem decodeFamily8_eq_unrecognized_iff :
    decodeFamily8 w = .unrecognized w ↔ fieldN w ∈ ([0x8, 0x9, 0xA, 0xB, 0xC, 0xD, 0xF] : List (BitVec 4)) := by
  rw [mem_keysLeft8]
  unfold decodeFamily8
  split
  case h_1 hn | h_2 hn | h_3 hn | h_4 hn | h_5 hn | h_6 hn | h_7 hn | h_8 hn | h_9 hn => simp [hn]
  case h_10 => simpa using ⟨‹_›, ‹_›, ‹_›, ‹_›, ‹_›, ‹_›, ‹_›, ‹_›, ‹_›⟩

theorem decodeFamilyE_eq_unrecognized_iff :
    decodeFamilyE w = .unrecognized w ↔ fieldNN w ∉ ([0x9E, 0xA1] : List Byte) := by
  unfold decodeFamilyE
  split
  case h_1 hnn | h_2 hnn => simp [hnn]
  case h_3 => simpa using ⟨‹_›, ‹_›⟩

theorem decodeFamilyF_eq_unrecognized_iff :
    decodeFamilyF w = .unrecognized w ↔
      fieldNN w ∉ ([0x07, 0x0A, 0x15, 0x18, 0x1E, 0x29, 0x33, 0x55, 0x65] : List Byte) := by
  unfold decodeFamilyF
  split
  case h_1 hnn | h_2 hnn | h_3 hnn | h_4 hnn | h_5 hnn | h_6 hnn | h_7 hnn | h_8 hnn | h_9 hnn => simp [hnn]
  case h_10 => simpa using ⟨‹_›, ‹_›, ‹_›, ‹_›, ‹_›, ‹_›, ‹_›, ‹_›, ‹_›⟩

/-- The words of R62, family by family, in the fields of the decoder. -/
theorem isUnrecognizedWord_iff : isUnrecognizedWord w = true ↔
    (familyOf w = 0x0 ∧ w ≠ 0x0000 ∧ fieldNN w ≠ 0xE0 ∧ fieldNN w ≠ 0xEE) ∨
    (familyOf w = 0x8 ∧ fieldN w ∈ ([0x8, 0x9, 0xA, 0xB, 0xC, 0xD, 0xF] : List (BitVec 4))) ∨
    (familyOf w = 0xE ∧ fieldNN w ∉ ([0x9E, 0xA1] : List Byte)) ∨
    (familyOf w = 0xF ∧ fieldNN w ∉ ([0x07, 0x0A, 0x15, 0x18, 0x1E, 0x29, 0x33, 0x55, 0x65] : List Byte)) := by
  simp [isUnrecognizedWord, familyOf, fieldNN, fieldN, and_assoc, or_assoc]

/-- The last row of the opcode map is reached by the words of R62 and no others. -/
theorem decode_eq_unrecognized_iff : decode w = .unrecognized w ↔ isUnrecognizedWord w = true := by
  rw [isUnrecognizedWord_iff]
  unfold decode
  split
  case h_1 hf => simp [hf, decodeFamily0_eq_unrecognized_iff]
  case h_9 hf => simp [hf, decodeFamily8_eq_unrecognized_iff]
  case h_15 hf => simp [hf, decodeFamilyE_eq_unrecognized_iff]
  case h_16 =>
    have hf := family_last _ ‹_› ‹_› ‹_› ‹_› ‹_› ‹_› ‹_› ‹_› ‹_› ‹_› ‹_› ‹_› ‹_› ‹_› ‹_›
    simp [hf, decodeFamilyF_eq_unrecognized_iff]
  case h_2 hf | h_3 hf | h_4 hf | h_5 hf | h_6 hf | h_7 hf | h_8 hf | h_10 hf | h_11 hf | h_12 hf | h_13 hf | h_14 hf =>
    simp [hf]

/-- Decoding gives well-formed instructions only. -/
theorem wellFormed_decode (w : Word) : (decode w).wellFormed = true := by
  cases hdecode : decode w with
  | unrecognized v =>
    obtain rfl := eq_of_decode_eq_unrecognized hdecode
    exact decode_eq_unrecognized_iff.1 hdecode
  | _ => rfl

/-! ### Decoding what was encoded -/

/-- A word with a key other than 00 is not the zero word, which is NOP's alone (R60). -/
theorem wordXNN_ne_zero {f nn : Nat} {x : Reg} (hf : f < 16) (hnn : nn < 256) (hpos : 0 < nn) :
    wordXNN f x nn ≠ 0#16 := by
  intro hzero
  have htoNat := toNat_wordXNN (x := x) hf hnn
  rw [hzero, BitVec.toNat_zero] at htoNat
  omega

/-- A well-formed instruction is the one its word decodes to (R59), ignored bits included. -/
theorem decode_encode {i : Instr} (hwf : i.wellFormed = true) : decode (encode i) = i := by
  cases i with
  | nop => rfl
  | unrecognized w => exact decode_eq_unrecognized_iff.2 hwf
  | cls x | ret x =>
    simp [encode, decode, decodeFamily0, familyOf_wordXNN, fieldNN_wordXNN, fieldX_wordXNN, wordXNN_ne_zero]
  | jp nnn | call nnn | ldI nnn | jpV0 nnn =>
    simp [encode, decode, familyOf_wordNNN, fieldNNN_wordNNN]
  | seImm x nn | sneImm x nn | ldImm x nn | addImm x nn | rnd x nn =>
    simp [encode, decode, familyOf_wordXNN, fieldX_wordXNN, fieldNN_wordXNN, nn.isLt]
  | seReg x y n | sneReg x y n | drw x y n =>
    simp [encode, decode, familyOf_wordXYN, fieldX_wordXYN, fieldY_wordXYN, fieldN_wordXYN, n.isLt]
  | ldReg x y | orReg x y | andReg x y | xorReg x y | addReg x y | subReg x y | shr x y | subn x y | shl x y =>
    simp [encode, decode, decodeFamily8, familyOf_wordXYN, fieldX_wordXYN, fieldY_wordXYN, fieldN_wordXYN]
  | skp x | sknp x =>
    simp [encode, decode, decodeFamilyE, familyOf_wordXNN, fieldX_wordXNN, fieldNN_wordXNN]
  | ldVxDT x | wkey x | ldDT x | ldST x | addI x | ldF x | ldB x | storeRegs x | loadRegs x =>
    simp [encode, decode, decodeFamilyF, familyOf_wordXNN, fieldX_wordXNN, fieldNN_wordXNN]

/-- The byte decoder reads an instruction from the bytes it has in memory (20_memory.md R40) and no others. -/
theorem decodeBytes_encodeBytes_append {i : Instr} (hwf : i.wellFormed = true) (rest : List Byte) :
    decodeBytes (encodeBytes i ++ rest) = .ok (i, rest) := by
  simp [encodeBytes, decodeBytes, decode_encode hwf]

/-- A byte list is rejected exactly if it holds no whole word (R53). -/
theorem decodeBytes_eq_truncated_iff (bs : List Byte) : decodeBytes bs = .error .truncated ↔ bs.length < 2 := by
  match bs with
  | [] => simp [decodeBytes]
  | [_] => simp [decodeBytes]
  | hi :: lo :: rest => simp [decodeBytes]

/-- Settles O2: `decode_encode`, on words and on bytes. -/
theorem decodeInvertsEncode : Obligations.DecodeInvertsEncode :=
  fun _ hwf => ⟨decode_encode hwf, decodeBytes_encodeBytes_append hwf⟩

/-- Settles O3: `encode_decode`, `wellFormed_decode` and the byte lists of each length. -/
theorem encodeInvertsDecode : Obligations.EncodeInvertsDecode :=
  ⟨fun w => ⟨encode_decode w, wellFormed_decode w⟩, decodeBytes_eq_truncated_iff⟩

/-! ### The unrecognized words as numbers -/

/-- Settles O4: `isUnrecognizedWord_iff` with every field read as a number. -/
theorem unrecognizedWordsAreTheListed : Obligations.UnrecognizedWordsAreTheListed := by
  intro w
  rw [decode_eq_unrecognized_iff, isUnrecognizedWord_iff]
  simp [← BitVec.toNat_inj, toNat_familyOf, toNat_fieldN, toNat_fieldNN]

end Sys2Proof
end

section
/-! SUPPORT. The ignored bits (30_encoding.md R60, R61) and the spelling that leaves them out (R67). -/

namespace Sys2Proof

open Machine

/-- The instruction a line of assembler text spells, with ignored bits 0; `none` for a line that spells none. -/
def AsmLine.parse : AsmLine → Option Instr
  | ⟨"NOP", []⟩ => some .nop
  | ⟨"CLS", []⟩ => some (.cls 0)
  | ⟨"RET", []⟩ => some (.ret 0)
  | ⟨"JP", [.addr nnn]⟩ => some (.jp nnn)
  | ⟨"JP", [.reg _, .addr nnn]⟩ => some (.jpV0 nnn)
  | ⟨"CALL", [.addr nnn]⟩ => some (.call nnn)
  | ⟨"SE", [.reg x, .byte nn]⟩ => some (.seImm x nn)
  | ⟨"SE", [.reg x, .reg y]⟩ => some (.seReg x y 0)
  | ⟨"SNE", [.reg x, .byte nn]⟩ => some (.sneImm x nn)
  | ⟨"SNE", [.reg x, .reg y]⟩ => some (.sneReg x y 0)
  | ⟨"LD", [.reg x, .byte nn]⟩ => some (.ldImm x nn)
  | ⟨"LD", [.reg x, .reg y]⟩ => some (.ldReg x y)
  | ⟨"LD", [.index, .addr nnn]⟩ => some (.ldI nnn)
  | ⟨"LD", [.reg x, .delayTimer]⟩ => some (.ldVxDT x)
  | ⟨"LD", [.delayTimer, .reg x]⟩ => some (.ldDT x)
  | ⟨"LD", [.soundTimer, .reg x]⟩ => some (.ldST x)
  | ⟨"LD", [.font, .reg x]⟩ => some (.ldF x)
  | ⟨"LD", [.bcd, .reg x]⟩ => some (.ldB x)
  | ⟨"LD", [.atIndex, .reg x]⟩ => some (.storeRegs x)
  | ⟨"LD", [.reg x, .atIndex]⟩ => some (.loadRegs x)
  | ⟨"ADD", [.reg x, .byte nn]⟩ => some (.addImm x nn)
  | ⟨"ADD", [.reg x, .reg y]⟩ => some (.addReg x y)
  | ⟨"ADD", [.index, .reg x]⟩ => some (.addI x)
  | ⟨"OR", [.reg x, .reg y]⟩ => some (.orReg x y)
  | ⟨"AND", [.reg x, .reg y]⟩ => some (.andReg x y)
  | ⟨"XOR", [.reg x, .reg y]⟩ => some (.xorReg x y)
  | ⟨"SUB", [.reg x, .reg y]⟩ => some (.subReg x y)
  | ⟨"SUBN", [.reg x, .reg y]⟩ => some (.subn x y)
  | ⟨"SHR", [.reg x, .reg y]⟩ => some (.shr x y)
  | ⟨"SHL", [.reg x, .reg y]⟩ => some (.shl x y)
  | ⟨"RND", [.reg x, .byte nn]⟩ => some (.rnd x nn)
  | ⟨"DRW", [.reg x, .reg y, .nibble n]⟩ => some (.drw x y n)
  | ⟨"SKP", [.reg x]⟩ => some (.skp x)
  | ⟨"SKNP", [.reg x]⟩ => some (.sknp x)
  | ⟨"WKEY", [.key x]⟩ => some (.wkey x)
  | ⟨".word", [.word w]⟩ => some (.unrecognized w)
  | _ => none

/-- A spelling determines its instruction up to the ignored bits. -/
theorem parse_assembly (i : Instr) : i.assembly.parse = some i.withIgnoredBitsZero := by
  cases i <;> rfl

/-- No spelling shows an ignored bit. -/
theorem assembly_withIgnoredBitsZero (i : Instr) : i.withIgnoredBitsZero.assembly = i.assembly := by
  cases i <;> rfl

theorem wellFormed_withIgnoredBitsZero (i : Instr) : i.withIgnoredBitsZero.wellFormed = i.wellFormed := by
  cases i <;> rfl

/-- No meaning reads an ignored bit. -/
theorem exec_withIgnoredBitsZero (i : Instr) (s : State) : exec i.withIgnoredBitsZero s = exec i s := by
  cases i <;> rfl

/-- The word the assembler emits decodes to the instruction with its ignored bits 0. -/
theorem decode_assembledWord {i : Instr} (hwf : i.wellFormed = true) :
    decode i.assembledWord = i.withIgnoredBitsZero :=
  decode_encode ((wellFormed_withIgnoredBitsZero i).trans hwf)

/-- Settles O6: the decoder and the parser both recover the instruction with its ignored bits 0. -/
theorem ignoredBitsChangeNothing : Obligations.IgnoredBitsChangeNothing := by
  refine ⟨fun i s hwf => ?_, fun i j hi hj => ⟨fun hline => ?_, fun hword => ?_⟩⟩
  · rw [decode_assembledWord hwf, exec_withIgnoredBitsZero]
  · have hzero : i.withIgnoredBitsZero = j.withIgnoredBitsZero :=
      Option.some.inj (by rw [← parse_assembly, ← parse_assembly, hline])
    exact congrArg encode hzero
  · have hzero : i.withIgnoredBitsZero = j.withIgnoredBitsZero := by
      rw [← decode_assembledWord hi, ← decode_assembledWord hj, hword]
    rw [← assembly_withIgnoredBitsZero i, ← assembly_withIgnoredBitsZero j, hzero]

end Sys2Proof
end

section
/-! SUPPORT. QUIRK (30_encoding.md R65): what does not read it, and one state in which the five instructions that do read it
show it. -/

namespace Sys2Proof.Machine

theorem keepsFont_withQuirk (q : Quirk) : KeepsFont (fun c => { c with quirk := q }) :=
  ⟨fun _ => rfl, fun _ => rfl⟩

theorem keepsParametersOf_withQuirk (q : Quirk) {i : Instr} (hi : readsQuirk i = false) :
    KeepsParametersOf i (fun c => { c with quirk := q }) :=
  ⟨keepsFont_withQuirk q, fun hreads => absurd hreads (by simp [hi]), fun _ _ _ _ _ => rfl, fun _ _ _ => rfl⟩

/-- V2 and V3 differ from V1 and V0, which the other value of QUIRK reads in their place. -/
def quirkWitness : State := (State.reset.setReg 2 2).setReg 3 1

/-- Where the five show it: 8XY6 and 8XYE in V1, BNNN in PC, FX55 and FX65 in I. -/
def shownByQuirk (t : State) : Byte × Word × Word := (t.reg 1, t.pc, t.i)

/-- Settles O15: QUIRK is a parameter that no fetch and no other instruction reads; in `quirkWitness` each of the five
leaves another state under `Modern` than under `Legacy`. -/
theorem quirkSelectsFiveInstructions : Obligations.QuirkSelectsFiveInstructions := by
  refine ⟨fun s q => ?_, fun i s q hi => ?_, fun i hi => ⟨quirkWitness, fun h => ?_⟩⟩
  · have hfetch := s.fetchInstr_mapCfg (keepsFont_withQuirk q)
    exact hfetch
  · exact exec_mapCfg (keepsParametersOf_withQuirk q hi) s
  · simp only [List.mem_cons, List.not_mem_nil, or_false] at hi
    rcases hi with rfl | rfl | rfl | rfl | rfl <;>
      exact absurd (congrArg shownByQuirk (Host.Outcome.next.inj h)) (by decide)

end Sys2Proof.Machine
end

section
/-! SUPPORT. The fields of a word put together (30_encoding.md R69), and words written out from the patterns (R59). -/

namespace Sys2Proof

/-- Two adjacent slices of a word, the upper one shifted past the lower one, make one slice. -/
theorem shiftLeft_or_extractLsb' (w : Word) (m start lo hi : Nat) :
    ((w.extractLsb' (start + lo) hi).setWidth m <<< lo) ||| (w.extractLsb' start lo).setWidth m =
      (w.extractLsb' start (lo + hi)).setWidth m := by
  ext k hk
  by_cases hlo : k < lo
  · have hsum : k < lo + hi := by omega
    simp [hlo, hsum]
  · have hbit : start + lo + (k - lo) = start + k := by omega
    have hhi : k - lo < hi ↔ k < lo + hi := by omega
    simp [hlo, hbit, hhi]

/-- An index field as a number is its slice of the word. -/
theorem ofNat_val_fieldX (w : Word) (m : Nat) : BitVec.ofNat m (fieldX w).val = (w.extractLsb' 8 4).setWidth m :=
  BitVec.ofNat_toNat ..

theorem ofNat_val_fieldY (w : Word) (m : Nat) : BitVec.ofNat m (fieldY w).val = (w.extractLsb' 4 4).setWidth m :=
  BitVec.ofNat_toNat ..

/-- Y and N in their places are NN. -/
theorem fieldY_or_fieldN (w : Word) (m : Nat) :
    (BitVec.ofNat m (fieldY w).val <<< 4) ||| (fieldN w).setWidth m = (fieldNN w).setWidth m := by
  rw [ofNat_val_fieldY]
  exact shiftLeft_or_extractLsb' w m 0 4 4

/-- X and NN in their places are NNN. -/
theorem fieldX_or_fieldNN (w : Word) (m : Nat) :
    (BitVec.ofNat m (fieldX w).val <<< 8) ||| (fieldNN w).setWidth m = (fieldNNN w).setWidth m := by
  rw [ofNat_val_fieldX]
  exact shiftLeft_or_extractLsb' w m 0 8 4

/-- The family and NNN in their places are the word. -/
theorem familyOf_or_fieldNNN (w : Word) : ((familyOf w).setWidth 16 <<< 12) ||| (fieldNNN w).setWidth 16 = w :=
  (shiftLeft_or_extractLsb' w 16 0 12 4).trans (by simp)

/-- Settles O1: NN is made of Y and N, NNN of X and NN, and the word of its family and NNN. -/
theorem fieldsRecoverTheWord : Obligations.FieldsRecoverTheWord := by
  refine fun w => ⟨?_, ?_, ?_⟩
  · rw [BitVec.or_assoc, BitVec.or_assoc, fieldY_or_fieldN, fieldX_or_fieldNN, familyOf_or_fieldNNN]
  · rw [fieldY_or_fieldN, BitVec.setWidth_eq]
  · rw [fieldX_or_fieldNN, BitVec.setWidth_eq]

/-- Settles O5: the decoder run on each word. -/
theorem sampleWordsDecode : Obligations.SampleWordsDecode := by
  unfold Obligations.SampleWordsDecode
  decide

end Sys2Proof
end

section
/-! SUPPORT. The step and the four meanings of 40_control_unit.md: what a move of the engine runs (R70), that every
instruction answers a next state (R73), NOP and the unrecognized words (R74, R75), what reads KEYS (R76), self-jumps (R77)
and the wait for a key (R78). -/

namespace Sys2Proof

/-- A well-formed instruction is decoded from its own word alone (30_encoding.md R59, R69). -/
theorem decode_eq_iff {i : Instr} (hwf : i.wellFormed = true) {w : Word} : decode w = i ↔ w = encode i :=
  ⟨fun h => h ▸ (encode_decode w).symm, fun h => h ▸ decode_encode hwf⟩

namespace Machine

variable {s : State}

/-! ### The step (R70) -/

/-- The bytes at PC and PC + 1, addresses mod 4096, are the word fetched (20_memory.md R38, R40). -/
theorem decodeBytes_fetched (s : State) :
    decodeBytes [Memory.read s.cfg s.mem (s.pc.toNat % 4096), Memory.read s.cfg s.mem ((s.pc + 1).toNat % 4096)] =
      .ok (s.fetchInstr, []) := rfl

theorem step_of_engineMoves (h : EngineMoves s) : step s = exec s.fetchInstr s.advancePc := by
  obtain ⟨hrunning, hfault, hagenda⟩ := h
  rw [step_of_agenda_nil s hagenda, engineStep_ready s hrunning hfault]

/-- A `step` strobe at a ready engine is its step. -/
theorem act_engineStep_ready (hrunning : s.running = true) (hfault : s.fault = none) :
    act .engineStep s = exec s.fetchInstr s.advancePc := by
  have hready : s.engineReady = true := by simp [State.engineReady, hrunning, hfault]
  rw [act, if_pos hready, engineStep_ready s hrunning hfault]

/-- Settles O7: a move of the engine, with the agenda empty or strobed, is `exec` of the instruction fetched; a next state
of the engine's step needs FAULT = None. -/
theorem stepRunsDecodedInstruction : Obligations.StepRunsDecodedInstruction := by
  refine ⟨fun s i hmoves hbytes => ?_, fun s rest hrunning hfault hagenda => ?_, fun s hfault hagenda t hstep => ?_⟩
  · rw [decodeBytes_fetched] at hbytes
    cases hbytes
    exact step_of_engineMoves hmoves
  · rw [step_of_agenda_cons s hagenda]
    exact act_engineStep_ready (s := { s with agenda := rest }) hrunning hfault
  · rw [step_of_agenda_nil s hagenda] at hstep
    obtain ⟨-, hnone, -⟩ := engineStep_next s hstep
    exact hfault hnone

/-- Settles O8: CALL, RET and FX29 branch, and each branch answers a next state; the other arms of `exec` do so at once. -/
theorem everyInstructionAnswersANextState : Obligations.EveryInstructionAnswersANextState := by
  intro i s
  cases i with
  | ret x =>
    by_cases hsp : s.sp.val = 0
    · exact ⟨_, exec_ret_of_zero s x hsp⟩
    · exact ⟨_, exec_ret_of_pos s x hsp⟩
  | call nnn =>
    by_cases hsp : s.sp.val < 16
    · exact ⟨_, exec_call_of_lt s nnn hsp⟩
    · exact ⟨_, exec_call_of_full s nnn hsp⟩
  | ldF x =>
    simp only [exec, execLdF]
    split <;> exact ⟨_, rfl⟩
  | _ => exact ⟨_, rfl⟩

/-! ### NOP and the unrecognized words (R74, R75) -/

/-- `0X00` with X other than 0 is a word of 30_encoding.md R62. -/
theorem decode_wordXNN_zero_zero {x : Reg} (hx : x ≠ 0) :
    decode (wordXNN 0x0 x 0x00) = .unrecognized (wordXNN 0x0 x 0x00) := by
  have hne : wordXNN 0x0 x 0x00 ≠ 0x0000 := fun h => by
    have hfield := fieldX_wordXNN (x := x) (f := 0x0) (n := 0x00) (by decide) (by decide)
    rw [h] at hfield
    exact hx hfield.symm
  have hnn : fieldNN (wordXNN 0x0 x 0x00) = 0x00 := fieldNN_wordXNN (by decide) (by decide)
  rw [decode_eq_unrecognized_iff, isUnrecognizedWord_iff]
  exact .inl ⟨familyOf_wordXNN (by decide) (by decide), hne, by simp [hnn], by simp [hnn]⟩

/-- Settles O19: `0000` is the word of NOP, and a step at it is the advance of PC with nothing after. -/
theorem nopDoesNothing : Obligations.NopDoesNothing := by
  refine ⟨fun w => decode_eq_iff rfl, fun x => decode_wordXNN_zero_zero, fun s => rfl, fun s hmoves hword => ?_⟩
  have hfetch : s.fetchInstr = .nop := (decode_eq_iff rfl).2 hword
  rw [step_of_engineMoves hmoves, hfetch]
  rfl

/-- Settles O20: the frame of `State.emitDiagnostic`. -/
theorem unrecognizedWordEmitsDiagnostic : Obligations.UnrecognizedWordEmitsDiagnostic :=
  fun s w => ⟨s.emitDiagnostic w, rfl, rfl, s.sameBut_emitDiagnostic (by simp) w⟩

/-! ### What reads KEYS (R76) -/

/-- Settles O13: replacing KEYS rewrites a part that EX9E, EXA1 and FX0A alone touch. -/
theorem keysAreReadByThreeInstructions : Obligations.KeysAreReadByThreeInstructions := by
  intro i s k hi
  have hkeeps : KeepsPartsOf i { keys := fun _ => k } :=
    ⟨fun hreads => absurd hreads (by simp [hi]), fun _ _ => rfl, fun _ _ => ⟨rfl, rfl⟩, fun _ _ => ⟨rfl, rfl⟩⟩
  exact exec_mapParts hkeeps s

/-! ### Self-jumps (R77) -/

/-- PC set to `a` over the advance is back at the instruction exactly if `a` is its address. -/
theorem advancePc_setPc_eq_iff {a : Word} : s.advancePc.setPc a = s ↔ s.pc = a :=
  ⟨fun h => (congrArg State.pc h).symm, fun h => by subst h; rfl⟩

/-- A step at a JP changes nothing exactly if the jump is to its own address. -/
theorem step_jp_eq_self_iff {nnn : BitVec 12} (hmoves : EngineMoves s) (hfetch : s.fetchInstr = .jp nnn) :
    step s = .next s ↔ s.pc = zextNNN nnn := by
  rw [step_of_engineMoves hmoves, hfetch]
  exact (Host.Outcome.next.injEq ..).to_iff.trans advancePc_setPc_eq_iff

/-- A self-jump in terms of the instruction fetched. -/
theorem atSelfJump_iff : AtSelfJump s ↔ s.fault = none ∧ ∃ nnn, s.fetchInstr = .jp nnn ∧ s.pc = zextNNN nnn := by
  have hword (nnn : BitVec 12) : s.fetchInstr = .jp nnn ↔ s.fetchWord = BitVec.ofNat 16 (0x1000 + nnn.toNat) :=
    decode_eq_iff rfl
  have hpc (nnn : BitVec 12) : s.pc = zextNNN nnn ↔ s.pc.toNat = nnn.toNat := by
    rw [← BitVec.toNat_inj, zextNNN, BitVec.toNat_setWidth_of_le (by decide)]
  simp only [AtSelfJump, hword, hpc]

/-- Settles O55: a step at a JP changes nothing exactly at a self-jump, and a jump's target is a 12-bit address. -/
theorem selfJumpIsAFixedPoint : Obligations.SelfJumpIsAFixedPoint := by
  refine ⟨fun s hmoves hself => ?_, fun s nnn hmoves hfetch hstep => ?_⟩
  · obtain ⟨-, nnn, hfetch, hpc⟩ := atSelfJump_iff.1 hself
    refine ⟨?_, (step_jp_eq_self_iff hmoves hfetch).2 hpc⟩
    rw [hpc, zextNNN, BitVec.toNat_setWidth_of_le (by decide)]
    omega
  · have hpc := (step_jp_eq_self_iff hmoves hfetch).1 hstep
    obtain ⟨-, hfault, -⟩ := hmoves
    exact atSelfJump_iff.2 ⟨hfault, nnn, hfetch, hpc⟩

/-! ### The wait for a key (R78) -/

/-- The output `awaiting_key` in terms of the instruction fetched. -/
theorem awaitingKey_eq_some_iff {k : Reg} :
    s.awaitingKey = some k ↔ s.fault = none ∧ s.fetchInstr = .wkey k ∧ keyBit s.keys k.val = false := by
  unfold State.awaitingKey
  cases s.fault with
  | some c => simp
  | none =>
    cases s.fetchInstr with
    | wkey j =>
      by_cases hjk : j = k
      · subst hjk
        simp
      · simp [hjk]
    | _ => simp

/-- FX0A with its key not held takes PC back over the advance (45_timers_input.md R115). -/
theorem exec_wkey_of_not_held {k : Reg} (h : keyBit s.keys k.val = false) :
    exec (.wkey k) s.advancePc = .next s := by
  simp [exec, execWkey, h, advancePc_setPc_eq_iff]

/-- Settles O54: the port by `awaitingKey_eq_some_iff`, the word and the bit as numbers; the step by
`exec_wkey_of_not_held`. -/
theorem awaitingKeyStepChangesNothing : Obligations.AwaitingKeyStepChangesNothing := by
  refine ⟨fun s k => ?_, fun s k hmoves hawait => ?_⟩
  · have hword : s.fetchInstr = .wkey k ↔ s.fetchWord = wordXNN 0xF k 0x0A := decode_eq_iff rfl
    have hbit : keyBit s.keys k.val = false ↔ s.keys.toNat / 2 ^ k.val % 2 = 0 := by
      rw [keyBit_eq_div, if_pos k.isLt, decide_eq_false_iff_not]
      exact Nat.mod_two_ne_one
    rw [awaitingKey_eq_some_iff, hword, hbit]
  · obtain ⟨-, hfetch, hkey⟩ := awaitingKey_eq_some_iff.1 hawait
    rw [step_of_engineMoves hmoves, hfetch, exec_wkey_of_not_held hkey]

end Machine

end Sys2Proof
end

section
/-! SUPPORT. Control transfer (41_control_flow.md): which words the instructions are decoded from, and the effects of return,
jumps, call and skips. -/

namespace Sys2Proof.Machine

/-! ### Words decoded by match and mask (30_encoding.md R59) -/

/-- Words that encode the instruction made of their fields decode to it. -/
theorem decodesAs_of_encode {mask pattern : Word} {instr : Word → Instr} (hwf : ∀ w, (instr w).wellFormed = true)
    (hencode : ∀ w, w &&& mask = pattern → encode (instr w) = w) : DecodesAs mask pattern instr :=
  fun w hw => (decode_eq_iff (hwf w)).2 (hencode w hw).symm

/-- The same for a row that has its family to itself. -/
theorem decodesAs_of_family {pattern : Word} {instr : Word → Instr} (hwf : ∀ w, (instr w).wellFormed = true)
    (hencode : ∀ w, (familyOf w).toNat = (familyOf pattern).toNat → encode (instr w) = w) :
    DecodesAs 0xF000 pattern instr :=
  decodesAs_of_encode hwf fun w hw => hencode w (congrArg BitVec.toNat (familyOf_of_mask (by decide) hw))

/-! ### Operands as numbers -/

@[simp] theorem toNat_zextNNN (nnn : BitVec 12) : (zextNNN nnn).toNat = nnn.toNat :=
  BitVec.toNat_setWidth_of_le (by decide)

@[simp] theorem toNat_zextByte (b : Byte) : (zextByte b).toNat = b.toNat :=
  BitVec.toNat_setWidth_of_le (by decide)

/-- An address and an offset never leave the 16 bits of PC: at most 0xFFF + 0xFF (R86). -/
theorem toNat_zextNNN_add_zextByte (nnn : BitVec 12) (b : Byte) :
    (zextNNN nnn + zextByte b).toNat = nnn.toNat + b.toNat := by
  rw [BitVec.toNat_add, toNat_zextNNN, toNat_zextByte]
  omega

@[simp] theorem offsetReg_legacy (nnn : BitVec 12) : offsetReg .legacy nnn = 0 := rfl

/-- Under `Modern` BNNN adds the register of the top nibble of NNN (R86). -/
theorem offsetReg_modern {nnn : BitVec 12} {x : Reg} (hx : x.val = nnn.toNat / 256) : offsetReg .modern nnn = x := by
  apply Fin.ext
  show (nnn.extractLsb' 8 4).toNat = x.val
  rw [BitVec.extractLsb'_toNat, Nat.shiftRight_eq_div_pow, hx]
  omega

/-- The cell after an address (20_memory.md R38). -/
theorem memAddr_add_one (a : Word) : memAddr (a + 1) = (a.toNat + 1) % 4096 := by
  have hone : (1 : Word).toNat = 1 := rfl
  rw [memAddr, BitVec.toNat_add, hone]
  omega

namespace State

variable (s : State)

/-- The two bytes of a fetch as cells of memory (20_memory.md R38, R40). -/
theorem toNat_fetchWord_eq_read : s.fetchWord.toNat =
    (Memory.read s.cfg s.mem (s.pc.toNat % 4096)).toNat * 256 +
      (Memory.read s.cfg s.mem ((s.pc.toNat + 1) % 4096)).toNat := by
  rw [toNat_fetchWord, memRead, memRead, memAddr_add_one, memAddr]

/-! ### Where a skip leaves PC (R87) -/

theorem pc_skipIf_beq (a b : Byte) : (s.skipIf (a == b)).pc = if a.toNat = b.toNat then s.pc + 2 else s.pc := by
  simp [skipIf_eq, BitVec.toNat_inj]

theorem pc_skipIf_bne (a b : Byte) : (s.skipIf (a != b)).pc = if a.toNat = b.toNat then s.pc else s.pc + 2 := by
  simp [skipIf_eq, BitVec.toNat_inj]

end State

/-! ### The instructions -/

/-- Settles O21: RET by whether SP is 0. -/
theorem retPopsTheCallStack : Obligations.RetPopsTheCallStack := by
  refine ⟨decodesAs_of_encode (fun _ => rfl) fun w hw => ?_, fun s x => ⟨fun hpos => ?_, fun hzero => ?_⟩⟩
  · have hfamily : familyOf w = 0x0 := familyOf_of_mask (by decide) hw
    have hkey : fieldNN w = 0xEE := fieldNN_of_mask (by decide) hw
    exact wordXNN_fields (congrArg BitVec.toNat hfamily) (congrArg BitVec.toNat hkey)
  · exact ⟨_, exec_ret_of_pos s x hpos.ne', Vector.getElem?_eq_getElem _, rfl, rfl,
      s.sameBut_setStackAndPc (by simp) (by simp) _ _ _⟩
  · exact ⟨_, exec_ret_of_zero s x hzero, rfl, rfl, s.sameBut_raiseControlFlowFault (by simp) _⟩

/-- Settles O22: JP is `State.setPc` of the address. -/
theorem jumpSetsPc : Obligations.JumpSetsPc :=
  ⟨decodesAs_of_family (fun _ => rfl) fun _ => wordNNN_fields,
    fun s nnn => ⟨s.setPc (zextNNN nnn), rfl, toNat_zextNNN nnn, s.sameBut_setPc (by simp) _⟩⟩

/-- Settles O23: CALL by whether SP is below 16. -/
theorem callPushesReturnAddress : Obligations.CallPushesReturnAddress := by
  refine ⟨decodesAs_of_family (fun _ => rfl) fun _ => wordNNN_fields, fun s nnn => ⟨fun hlt => ?_, fun hfull => ?_⟩⟩
  · exact ⟨_, exec_call_of_lt s nnn hlt, toNat_zextNNN nnn, rfl, Vector.getElem?_set_self hlt,
      fun k hk => Vector.getElem_set_ne hlt k.isLt hk.symm, s.sameBut_setStackAndPc (by simp) (by simp) _ _ _⟩
  · have hnot : ¬ s.sp.val < 16 := by omega
    exact ⟨_, exec_call_of_full s nnn hnot, rfl, rfl, s.sameBut_raiseControlFlowFault (by simp) _⟩

/-- Settles O24: each skip is `State.skipIf` of its condition. -/
theorem registerSkipsAddTwo : Obligations.RegisterSkipsAddTwo := by
  refine ⟨decodesAs_of_family (fun _ => rfl) fun _ hfamily => wordXNN_fields hfamily rfl,
    decodesAs_of_family (fun _ => rfl) fun _ hfamily => wordXNN_fields hfamily rfl,
    decodesAs_of_family (fun _ => rfl) fun _ hfamily => wordXYN_fields hfamily rfl,
    decodesAs_of_family (fun _ => rfl) fun _ hfamily => wordXYN_fields hfamily rfl, fun s x y nn n => ?_⟩
  have hframe (c : Bool) : SameBut s (s.skipIf c) [.pc] [] [] := s.sameBut_skipIf (by simp) c
  exact ⟨⟨_, rfl, s.pc_skipIf_beq _ _, hframe _⟩, ⟨_, rfl, s.pc_skipIf_bne _ _, hframe _⟩,
    ⟨_, rfl, s.pc_skipIf_beq _ _, hframe _⟩, ⟨_, rfl, s.pc_skipIf_bne _ _, hframe _⟩⟩

/-- Settles O25: BNNN is `State.setPc` of a sum that does not wrap, and the fetch there reads unchanged memory. -/
theorem jumpWithOffsetAddsTheQuirkRegister : Obligations.JumpWithOffsetAddsTheQuirkRegister := by
  refine ⟨decodesAs_of_family (fun _ => rfl) fun _ => wordNNN_fields, fun s nnn => ?_⟩
  refine ⟨_, rfl, s.sameBut_setPc (by simp) _, fun hlegacy => ?_, fun hmodern x hx => ?_,
    State.toNat_fetchWord_eq_read _⟩
  · rw [State.setPc_pc, toNat_zextNNN_add_zextByte, hlegacy, offsetReg_legacy]
  · rw [State.setPc_pc, toNat_zextNNN_add_zextByte, hmodern, offsetReg_modern hx]

end Sys2Proof.Machine
end

section
/-! SUPPORT. Registers and arithmetic (42_alu.md): which words the instructions are decoded from, and the registers and the
flag each leaves; the frame of each is `exec_sameBut`. -/

namespace Sys2Proof.Machine

/-! ### Words decoded by family and N (30_encoding.md R58, R59) -/

/-- A row keyed by N decodes the words that its instruction, made of their fields, encodes to. -/
theorem decodesAs_of_family_of_key {pattern : Word} {instr : Word → Instr} (hwf : ∀ w, (instr w).wellFormed = true)
    (hencode : ∀ w, (familyOf w).toNat = (familyOf pattern).toNat → (fieldN w).toNat = (fieldN pattern).toNat →
      encode (instr w) = w) : DecodesAs 0xF00F pattern instr :=
  decodesAs_of_encode hwf fun w hw => hencode w (congrArg BitVec.toNat (familyOf_of_mask (by decide) hw))
    (congrArg BitVec.toNat (fieldN_of_mask (by decide) hw))

/-! ### Bytes as numbers -/

theorem toNat_carryFlag (a b : Byte) : (carryFlag a b).toNat = if a.toNat + b.toNat > 255 then 1 else 0 := by
  simp [carryFlag]

theorem toNat_noBorrowFlag (a b : Byte) : (noBorrowFlag a b).toNat = if a.toNat ≥ b.toNat then 1 else 0 := by
  simp [noBorrowFlag]

theorem toNat_byte_sub (a b : Byte) : (a - b).toNat = (a.toNat + 256 - b.toNat) % 256 := by
  rw [BitVec.toNat_sub]
  omega

theorem toNat_byte_shiftRight_one (a : Byte) : (a >>> 1).toNat = a.toNat / 2 := by
  rw [BitVec.toNat_ushiftRight, Nat.shiftRight_eq_div_pow]

theorem toNat_byte_shiftLeft_one (a : Byte) : (a <<< 1).toNat = a.toNat * 2 % 256 := by
  rw [BitVec.toNat_shiftLeft, Nat.shiftLeft_eq]

namespace State

variable (s : State)

/-! ### The flag first, then the result (30_encoding.md R66) -/

theorem reg_setReg_same (x : Reg) (b : Byte) : (s.setReg x b).reg x = b := by simp

/-- An operand read after the flag is written: the flag if the operand is VF. -/
theorem toNat_reg_setFlag (f : Byte) (r : Reg) :
    ((s.setFlag f).reg r).toNat = if r = vf then f.toNat else (s.reg r).toNat := by
  rw [reg_setFlag, apply_ite BitVec.toNat]

/-- `f` written to VF, then V[x] written with what `g` reads in the state that leaves. -/
def writeAfterFlag (x : Reg) (f : Byte) (g : State → Byte) : State := (s.setFlag f).setReg x (g (s.setFlag f))

theorem reg_writeAfterFlag (x : Reg) (f : Byte) (g : State → Byte) :
    (s.writeAfterFlag x f g).reg x = g (s.setFlag f) :=
  reg_setReg_same _ _ _

/-- The flag stays unless VF is the destination too. -/
theorem reg_vf_writeAfterFlag {x : Reg} (hx : x ≠ vf) (f : Byte) (g : State → Byte) :
    (s.writeAfterFlag x f g).reg vf = f := by
  simp [writeAfterFlag, hx.symm]

/-- A difference of registers written after the flag (R95, R97). -/
theorem toNat_reg_writeAfterFlag_sub (x p q : Reg) (f : Byte) :
    ((s.writeAfterFlag x f fun u => u.reg p - u.reg q).reg x).toNat =
      ((if p = vf then f.toNat else (s.reg p).toNat) + 256 - if q = vf then f.toNat else (s.reg q).toNat) % 256 := by
  rw [reg_writeAfterFlag, toNat_byte_sub, toNat_reg_setFlag, toNat_reg_setFlag]

/-- `z` copied to V[x], `f` written to VF, then V[x] shifted by `g` (R96, R98). -/
def shiftAfterFlag (x : Reg) (z f : Byte) (g : Byte → Byte) : State :=
  (s.setReg x z).writeAfterFlag x f fun u => g (u.reg x)

variable {s} {x : Reg} {z f : Byte} {g : Byte → Byte}

theorem reg_shiftAfterFlag (hx : x ≠ vf) : (s.shiftAfterFlag x z f g).reg x = g z := by
  rw [shiftAfterFlag, reg_writeAfterFlag, reg_setFlag, if_neg hx, reg_setReg_same]

theorem reg_vf_shiftAfterFlag (hx : x ≠ vf) : (s.shiftAfterFlag x z f g).reg vf = f :=
  reg_vf_writeAfterFlag _ hx _ _

/-- With VF as the destination the flag overwrites the copy and is shifted itself. -/
theorem reg_vf_shiftAfterFlag_vf : (s.shiftAfterFlag vf z f g).reg vf = g f := by
  rw [shiftAfterFlag, reg_writeAfterFlag, reg_setFlag, if_pos rfl]

end State

variable (s : State)

/-! ### The meanings that write the flag first, in closed form -/

theorem exec_subReg (x y : Reg) : exec (.subReg x y) s =
    .next (s.writeAfterFlag x (noBorrowFlag (s.reg x) (s.reg y)) fun u => u.reg x - u.reg y) := rfl

theorem exec_subn (x y : Reg) : exec (.subn x y) s =
    .next (s.writeAfterFlag x (noBorrowFlag (s.reg y) (s.reg x)) fun u => u.reg y - u.reg x) := rfl

theorem exec_shr (x y : Reg) {z : Byte} (hz : z = s.reg (shiftSource s.cfg.quirk x y)) :
    exec (.shr x y) s = .next (s.shiftAfterFlag x z (shiftRightFlag z) (· >>> 1)) := by
  subst hz
  simp only [exec, execShr, State.reg_setReg_same]
  rfl

theorem exec_shl (x y : Reg) {z : Byte} (hz : z = s.reg (shiftSource s.cfg.quirk x y)) :
    exec (.shl x y) s = .next (s.shiftAfterFlag x z (shiftLeftFlag z) (· <<< 1)) := by
  subst hz
  simp only [exec, execShl, State.reg_setReg_same]
  rfl

/-- The value shifted: V[Y] under `Legacy`, V[X] under `Modern`. -/
theorem toNat_reg_shiftSource (x y : Reg) : (s.reg (shiftSource s.cfg.quirk x y)).toNat =
    if s.cfg.quirk = .legacy then (s.reg y).toNat else (s.reg x).toNat := by
  cases s.cfg.quirk <;> rfl

/-! ### The instructions -/

/-- Settles O26: both are one register write, the sum mod 256 by the width of a byte. -/
theorem immediateLoadAndAdd : Obligations.ImmediateLoadAndAdd := by
  refine ⟨decodesAs_of_family (fun _ => rfl) fun _ hfamily => wordXNN_fields hfamily rfl,
    decodesAs_of_family (fun _ => rfl) fun _ hfamily => wordXNN_fields hfamily rfl, fun s x nn => ⟨?_, ?_⟩⟩
  · exact ⟨_, rfl, s.reg_setReg_same x nn, exec_sameBut (i := .ldImm x nn) rfl⟩
  · refine ⟨_, rfl, ?_, exec_sameBut (i := .addImm x nn) rfl⟩
    rw [State.reg_setReg_same, BitVec.toNat_add]

/-- Settles O27: each is one register write, whose bits are those of the operation on the operands. -/
theorem copyAndLogicBitByBit : Obligations.CopyAndLogicBitByBit := by
  refine ⟨decodesAs_of_family_of_key (fun _ => rfl) fun _ => wordXYN_fields,
    decodesAs_of_family_of_key (fun _ => rfl) fun _ => wordXYN_fields,
    decodesAs_of_family_of_key (fun _ => rfl) fun _ => wordXYN_fields,
    decodesAs_of_family_of_key (fun _ => rfl) fun _ => wordXYN_fields, fun s x y => ⟨?_, ?_, ?_, ?_⟩⟩
  · exact ⟨_, rfl, s.reg_setReg_same x _, exec_sameBut (i := .ldReg x y) rfl⟩
  · refine ⟨_, rfl, exec_sameBut (i := .orReg x y) rfl, fun k _ => ?_⟩
    rw [State.reg_setReg_same, BitVec.getLsbD_or]
  · refine ⟨_, rfl, exec_sameBut (i := .andReg x y) rfl, fun k _ => ?_⟩
    rw [State.reg_setReg_same, BitVec.getLsbD_and]
  · refine ⟨_, rfl, exec_sameBut (i := .xorReg x y) rfl, fun k _ => ?_⟩
    rw [State.reg_setReg_same, BitVec.getLsbD_xor]

/-- Settles O28: the flag, written last, is what VF holds; the sum stays in any other register. -/
theorem addRegistersCarryLast : Obligations.AddRegistersCarryLast := by
  refine ⟨decodesAs_of_family_of_key (fun _ => rfl) fun _ => wordXYN_fields, fun s x y => ?_⟩
  refine ⟨_, rfl, exec_sameBut (i := .addReg x y) rfl, ?_, fun hx => ?_⟩
  · rw [State.reg_setFlag, if_pos rfl, toNat_carryFlag]
  · rw [State.reg_setFlag, if_neg hx, State.reg_setReg_same, BitVec.toNat_add]

/-- Settles O29: the operands are read after the flag is written, and the difference overwrites it only in VF. -/
theorem subtractFlagFirst : Obligations.SubtractFlagFirst := by
  refine ⟨decodesAs_of_family_of_key (fun _ => rfl) fun _ => wordXYN_fields,
    decodesAs_of_family_of_key (fun _ => rfl) fun _ => wordXYN_fields, fun s x y => ⟨?_, ?_⟩⟩
  · exact ⟨_, _, _, _, exec_subReg s x y, exec_sameBut (exec_subReg s x y), toNat_noBorrowFlag _ _, rfl, rfl,
      s.toNat_reg_writeAfterFlag_sub x x y _, fun hx => congrArg BitVec.toNat (s.reg_vf_writeAfterFlag hx _ _)⟩
  · exact ⟨_, _, _, _, exec_subn s x y, exec_sameBut (exec_subn s x y), toNat_noBorrowFlag _ _, rfl, rfl,
      s.toNat_reg_writeAfterFlag_sub x y x _, fun hx => congrArg BitVec.toNat (s.reg_vf_writeAfterFlag hx _ _)⟩

/-- Settles O30: both are `State.shiftAfterFlag` of the value QUIRK selects. -/
theorem shiftFlagBeforeShift : Obligations.ShiftFlagBeforeShift := by
  refine ⟨decodesAs_of_family_of_key (fun _ => rfl) fun _ => wordXYN_fields,
    decodesAs_of_family_of_key (fun _ => rfl) fun _ => wordXYN_fields, fun s x y z hz => ?_⟩
  rw [← toNat_reg_shiftSource] at hz
  subst hz
  refine ⟨⟨_, exec_shr s x y rfl, exec_sameBut (exec_shr s x y rfl), fun hx => ⟨?_, ?_⟩, fun hx => ?_⟩,
    ⟨_, exec_shl s x y rfl, exec_sameBut (exec_shl s x y rfl), fun hx => ⟨?_, ?_⟩, fun hx => ?_⟩⟩
  · rw [State.reg_shiftAfterFlag hx, toNat_byte_shiftRight_one]
  · rw [State.reg_vf_shiftAfterFlag hx, toNat_shiftRightFlag]
  · subst hx
    rw [State.reg_vf_shiftAfterFlag_vf, toNat_byte_shiftRight_one, toNat_shiftRightFlag]
    omega
  · rw [State.reg_shiftAfterFlag hx, toNat_byte_shiftLeft_one]
  · rw [State.reg_vf_shiftAfterFlag hx, toNat_shiftLeftFlag]
  · subst hx
    rw [State.reg_vf_shiftAfterFlag_vf, toNat_byte_shiftLeft_one, toNat_shiftLeftFlag]
    omega

/-- Settles O31: the draw is counted and its byte, masked, written to the register. -/
theorem randomByteIsMasked : Obligations.RandomByteIsMasked := by
  refine ⟨decodesAs_of_family (fun _ => rfl) fun _ hfamily => wordXNN_fields hfamily rfl, fun s x nn r hr => ?_⟩
  subst hr
  refine ⟨_, rfl, exec_sameBut (i := .rnd x nn) rfl, rfl, fun k _ => ?_⟩
  rw [State.reg_setReg_same, BitVec.getLsbD_and, State.drawnByte]

end Sys2Proof.Machine
end

section
/-! SUPPORT. Index register and memory (43_index_memory.md): which words the instructions are decoded from, what each leaves
in I, VF, the block of registers and the cells it stores to; the frame of each comes from `SameBut`'s rules. -/

namespace Sys2Proof.Machine

/-! ### Words decoded by family and NN (30_encoding.md R58, R59) -/

/-- A row keyed by NN decodes the words that its instruction, made of their fields, encodes to. -/
theorem decodesAs_of_family_of_byte {pattern : Word} {instr : Word → Instr} (hwf : ∀ w, (instr w).wellFormed = true)
    (hencode : ∀ w, (familyOf w).toNat = (familyOf pattern).toNat → (fieldNN w).toNat = (fieldNN pattern).toNat →
      encode (instr w) = w) : DecodesAs 0xF0FF pattern instr :=
  decodesAs_of_encode hwf fun w hw => hencode w (congrArg BitVec.toNat (familyOf_of_mask (by decide) hw))
    (congrArg BitVec.toNat (fieldNN_of_mask (by decide) hw))

/-! ### Operands as numbers -/

theorem toNat_indexOverflowFlag (i : Word) (b : Byte) :
    (indexOverflowFlag i b).toNat = if i.toNat + b.toNat ≥ 0x1000 then 1 else 0 := by
  simp [indexOverflowFlag]

theorem toNat_add_zextByte (i : Word) (b : Byte) : (i + zextByte b).toNat = (i.toNat + b.toNat) % 65536 := by
  rw [BitVec.toNat_add, toNat_zextByte]

theorem toNat_lowNibble (b : Byte) : (b &&& 0x0F).toNat = b.toNat % 16 :=
  Nat.and_two_pow_sub_one_eq_mod b.toNat 4

/-- A glyph's address never leaves 16 bits: at most 0x1B0 + 5 * 15 (R103). -/
theorem toNat_glyphAddr (cfg : Config) (b : Byte) :
    (glyphAddr cfg b).toNat = cfg.fontBase.val + 5 * (b.toNat % 16) := by
  rw [glyphAddr, toNat_lowNibble, BitVec.toNat_ofNat]
  omega

theorem toNat_bcdHundreds (b : Byte) : (bcdHundreds b).toNat = b.toNat / 100 := by
  rw [bcdHundreds, BitVec.toNat_ofNat]
  omega

theorem toNat_bcdTens (b : Byte) : (bcdTens b).toNat = b.toNat / 10 % 10 := by
  rw [bcdTens, BitVec.toNat_ofNat]
  omega

theorem toNat_bcdUnits (b : Byte) : (bcdUnits b).toNat = b.toNat % 10 := by
  rw [bcdUnits, BitVec.toNat_ofNat]
  omega

/-- I after a block under `Legacy` (R105, R106). -/
theorem toNat_indexAfterBlock_of_legacy {q : Quirk} (hq : q = .legacy) (i : Word) (x : Reg) :
    (indexAfterBlock q i x).toNat = (i.toNat + x.val + 1) % 65536 := by
  rw [hq, indexAfterBlock, BitVec.toNat_add, BitVec.toNat_ofNat]
  omega

theorem indexAfterBlock_of_modern {q : Quirk} (hq : q = .modern) (i : Word) (x : Reg) : indexAfterBlock q i x = i := by
  rw [hq, indexAfterBlock]

/-! ### The cells FX33 stores to (R104) -/

/-- Distinct offsets inside the space name distinct cells. -/
theorem memAddr_indexed_ne {i : Word} {j k : Nat} (hj : j < 4096) (hk : k < 4096) (h : j ≠ k) :
    memAddr (indexed i j) ≠ memAddr (indexed i k) :=
  fun e => h (memAddr_indexed_inj hj hk e)

/-- The same for an offset and none. -/
theorem memAddr_indexed_ne_self {i : Word} {k : Nat} (hk : k < 4096) (h : k ≠ 0) : memAddr (indexed i k) ≠ memAddr i := by
  have hzero : indexed i 0 = i := BitVec.add_zero i
  have hne := memAddr_indexed_ne (i := i) hk (by decide) h
  rwa [hzero] at hne

namespace State

variable (s : State)

/-- The last of FX33's stores leaves the units. -/
theorem memRead_storeBcd_units (b : Byte) : (s.storeBcd b).memRead (indexed s.i 2) = bcdUnits b := by
  rw [storeBcd, memRead_memWrite, if_pos rfl]

/-- The store of the units misses the cell of the tens. -/
theorem memRead_storeBcd_tens (b : Byte) : (s.storeBcd b).memRead (indexed s.i 1) = bcdTens b := by
  rw [storeBcd, memRead_memWrite, if_neg (memAddr_indexed_ne (by decide) (by decide) (by decide)),
    memRead_memWrite, if_pos rfl]

/-- The stores of the tens and the units miss the cell of the hundreds. -/
theorem memRead_storeBcd_hundreds (b : Byte) : (s.storeBcd b).memRead s.i = bcdHundreds b := by
  rw [storeBcd, memRead_memWrite, if_neg (memAddr_indexed_ne_self (by decide) (by decide)),
    memRead_memWrite, if_neg (memAddr_indexed_ne_self (by decide) (by decide)), memRead_memWrite, if_pos rfl]

end State

/-! ### FX29 and FX65 by case -/

theorem exec_ldF_of_present {s : State} (h : s.cfg.fx29Present = true) (x : Reg) :
    exec (.ldF x) s = .next (s.setI (glyphAddr s.cfg (s.reg x))) := if_pos h

/-- Without FX29 the word is executed as an unrecognized one (40_control_unit.md R75). -/
theorem exec_ldF_of_absent {s : State} (h : s.cfg.fx29Present = false) (x : Reg) :
    exec (.ldF x) s = exec (.unrecognized (encode (.ldF x))) s := if_neg (by simp [h])

/-- The register FX65 leaves: loaded if it is of the block, and unchanged if not (R106). -/
theorem reg_of_exec_loadRegs {s t : State} {x : Reg} (h : exec (.loadRegs x) s = .next t) (k : Reg) :
    t.reg k = if k ≤ x then s.memRead (indexed s.i k.val) else s.reg k := by
  cases h
  simp only [State.reg_setI, State.reg_loadBlock, mem_blockRegs]

/-! ### The instructions -/

/-- Settles O35: the block store leaves each register in its own cell, and I is written after it. -/
theorem blockStoreWritesRegisters : Obligations.BlockStoreWritesRegisters := by
  refine ⟨decodesAs_of_family_of_byte (fun _ => rfl) fun _ => wordXNN_fields, fun s x => ?_⟩
  have hcells : ∀ k ∈ blockRegs x,
      memAddr (indexed s.i k.val) ∈ (List.range (x.val + 1)).map (fun k => memAddr (indexed s.i k)) :=
    fun k hk => List.mem_map.2 ⟨k.val, List.mem_range.2 (Nat.lt_succ_of_le (mem_blockRegs.1 hk)), rfl⟩
  exact ⟨_, rfl, (s.sameBut_storeBlock hcells).trans (State.sameBut_setI _ (by simp) _),
    fun k hk => memRead_of_exec_storeRegs rfl hk rfl, fun hlegacy => toNat_indexAfterBlock_of_legacy hlegacy s.i x,
    fun hmodern => indexAfterBlock_of_modern hmodern s.i x⟩

/-- Settles O36: the block load by whether a register is of the block, and I is written after it. -/
theorem blockLoadReadsMemory : Obligations.BlockLoadReadsMemory := by
  refine ⟨decodesAs_of_family_of_byte (fun _ => rfl) fun _ => wordXNN_fields, fun s x => ?_⟩
  exact ⟨_, rfl, exec_sameBut (i := .loadRegs x) rfl,
    fun k hk => (reg_of_exec_loadRegs rfl k).trans (if_pos hk),
    fun k hk => (reg_of_exec_loadRegs rfl k).trans (if_neg (not_le.2 hk)),
    fun hlegacy => toNat_indexAfterBlock_of_legacy hlegacy s.i x,
    fun hmodern => indexAfterBlock_of_modern hmodern s.i x⟩

/-- Settles O32: ANNN is one write of I; FX1E writes the flag, then I, both from the values before. -/
theorem indexLoadAndAdd : Obligations.IndexLoadAndAdd := by
  refine ⟨decodesAs_of_family (fun _ => rfl) fun _ => wordNNN_fields,
    decodesAs_of_family_of_byte (fun _ => rfl) fun _ => wordXNN_fields, fun s nnn => ?_, fun s x => ?_⟩
  · exact ⟨_, rfl, toNat_zextNNN nnn, exec_sameBut (i := .ldI nnn) rfl⟩
  · refine ⟨_, rfl, exec_sameBut (i := .addI x) rfl, toNat_add_zextByte s.i (s.reg x), ?_⟩
    rw [State.reg_setI, State.reg_setFlag, if_pos rfl, toNat_indexOverflowFlag]

/-- Settles O33: FX29 by whether it is present; absent, the word recorded is the one it encodes to. -/
theorem glyphAddressOrDiagnostic : Obligations.GlyphAddressOrDiagnostic := by
  refine ⟨decodesAs_of_family_of_byte (fun _ => rfl) fun _ => wordXNN_fields, fun s x =>
    ⟨fun hpresent => ?_, fun habsent w hw => ?_⟩⟩
  · exact ⟨_, exec_ldF_of_present hpresent x, s.sameBut_setI (by simp) _, toNat_glyphAddr s.cfg (s.reg x)⟩
  · have hword : encode (.ldF x) = w := by
      apply BitVec.eq_of_toNat_eq
      rw [encode, toNat_wordXNN (by decide) (by decide), hw]
      omega
    rw [exec_ldF_of_absent habsent, hword]

/-- Settles O34: three stores to distinct cells, each of one digit. -/
theorem bcdStoresThreeDigits : Obligations.BcdStoresThreeDigits := by
  refine ⟨decodesAs_of_family_of_byte (fun _ => rfl) fun _ => wordXNN_fields, fun s x => ?_⟩
  exact ⟨_, rfl, s.sameBut_storeBcd (s.reg x),
    (congrArg BitVec.toNat (s.memRead_storeBcd_hundreds _)).trans (toNat_bcdHundreds _),
    (congrArg BitVec.toNat (s.memRead_storeBcd_tens _)).trans (toNat_bcdTens _),
    (congrArg BitVec.toNat (s.memRead_storeBcd_units _)).trans (toNat_bcdUnits _)⟩

end Sys2Proof.Machine
end

section
/-! SUPPORT. Display (44_display.md): which words the instructions are decoded from, and DXYN as one change of the pixels
of `State.spritePixels`, whichever edge setting places them. -/

namespace Sys2Proof.Machine

namespace State

variable {s : State}

/-! ### The display as its pixels (10_state.md R25) -/

@[simp] theorem pixel_clearDisplay (px : Fin 64) (py : Fin 32) : s.clearDisplay.pixel px py = false := by
  simp [pixel]

@[simp] theorem pixel_setFlag (b : Byte) (px : Fin 64) (py : Fin 32) : (s.setFlag b).pixel px py = s.pixel px py := rfl

/-- Every bit of a row is a pixel. -/
theorem disp_eq_iff {t : State} : t.disp = s.disp ↔ ∀ px py, t.pixel px py = s.pixel px py := by
  refine ⟨fun h px py => by rw [pixel, pixel, h], fun h => Vector.ext fun y hy => BitVec.eq_of_getLsbD_eq fun k hk => ?_⟩
  have hcol : 63 - (63 - k) = k := by omega
  have hbit := h ⟨63 - k, by omega⟩ ⟨y, hy⟩
  simpa only [pixel, hcol] using hbit

/-! ### What a sprite leaves (R108, R109) -/

variable {x0 y0 n : Nat}

/-- Drawing flips the sprite's pixels, each once, and no other. -/
theorem pixel_drawSprite (hn : n < 16) (px : Fin 64) (py : Fin 32) :
    (s.drawSprite x0 y0 n).pixel px py = (s.pixel px py ^^ decide ((px, py) ∈ s.spritePixels x0 y0 n)) := by
  rw [drawSprite_pixels, pixel_foldl_blitPixel _ (s.nodup_spritePixels x0 y0 n hn), pixel_setFlag]

theorem pixel_drawSprite_eq_iff (hn : n < 16) {px : Fin 64} {py : Fin 32} :
    (s.drawSprite x0 y0 n).pixel px py = s.pixel px py ↔ (px, py) ∉ s.spritePixels x0 y0 n := by
  rw [pixel_drawSprite hn]
  by_cases h : (px, py) ∈ s.spritePixels x0 y0 n <;> simp [h]

/-- VF is cleared before the first row, then set by any of the sprite's pixels that was lit. -/
theorem reg_vf_drawSprite (hn : n < 16) : (s.drawSprite x0 y0 n).reg vf =
    if ∃ p ∈ s.spritePixels x0 y0 n, s.pixel p.1 p.2 = true then 1 else 0 := by
  rw [drawSprite_pixels, reg_foldl_blitPixel _ (s.nodup_spritePixels x0 y0 n hn)]
  simp

theorem reg_vf_drawSprite_eq_one_iff (hn : n < 16) :
    (s.drawSprite x0 y0 n).reg vf = 1 ↔ ∃ p ∈ s.spritePixels x0 y0 n, s.pixel p.1 p.2 = true := by
  rw [reg_vf_drawSprite hn]
  split <;> simp [*]

theorem disp_drawSprite_ne_iff (hn : n < 16) :
    (s.drawSprite x0 y0 n).disp ≠ s.disp ↔ ∃ p, p ∈ s.spritePixels x0 y0 n := by
  simp [disp_eq_iff, pixel_drawSprite_eq_iff hn]

/-- Of the registers drawing writes VF only. -/
theorem reg_drawSprite_of_ne_vf {r : Reg} (hr : r ≠ vf) : (s.drawSprite x0 y0 n).reg r = s.reg r := by
  have hframe : SameBut s (s.drawSprite x0 y0 n) [.disp] [vf] [] := s.sameBut_drawSprite (by simp) (by simp) x0 y0 n
  exact hframe.reg r (by simpa using hr)

/-- The sprite is read from what drawing leaves unchanged. -/
@[simp] theorem spritePixels_drawSprite (x0' y0' n' : Nat) :
    (s.drawSprite x0' y0' n').spritePixels x0 y0 n = s.spritePixels x0 y0 n := by
  simp [spritePixels]

theorem disp_drawSprite_drawSprite (hn : n < 16) :
    ((s.drawSprite x0 y0 n).drawSprite x0 y0 n).disp = s.disp := by
  simp [disp_eq_iff, pixel_drawSprite hn]

/-- On a blank display the first draw lights the sprite's pixels, so the second collides exactly if there is one. -/
theorem reg_vf_drawSprite_drawSprite_of_blank (hn : n < 16) (hblank : ∀ px py, s.pixel px py = false) :
    ((s.drawSprite x0 y0 n).drawSprite x0 y0 n).reg vf = 1 ↔ (s.drawSprite x0 y0 n).disp ≠ s.disp := by
  rw [reg_vf_drawSprite_eq_one_iff hn, disp_drawSprite_ne_iff hn, spritePixels_drawSprite]
  refine exists_congr fun p => and_iff_left_of_imp fun hp => ?_
  simp [pixel_drawSprite hn, hblank, hp]

end State

/-! ### DXYN -/

variable {s : State} {x y : Reg} {n : BitVec 4}

theorem exec_drw (s : State) (x y : Reg) (n : BitVec 4) :
    exec (.drw x y n) s = .next (s.drawSprite (spriteX (s.reg x)) (spriteY (s.reg y)) n.toNat) := rfl

theorem decodesAs_drw : DecodesAs 0xF000 0xD000 (fun w => .drw (fieldX w) (fieldY w) (fieldN w)) :=
  decodesAs_of_family (fun _ => rfl) fun _ hfamily => wordXYN_fields hfamily rfl

/-- DXYN by the relation `hit` that holds of exactly the sprite's pixels. -/
theorem exec_drw_of_hit {hit : Fin 64 → Fin 32 → Prop}
    (hhit : ∀ px py, hit px py ↔ (px, py) ∈ s.spritePixels (spriteX (s.reg x)) (spriteY (s.reg y)) n.toNat) :
    ∃ t, exec (.drw x y n) s = .next t ∧ SameBut s t [.disp] [15] [] ∧
      (∀ px py, (hit px py → t.pixel px py = !s.pixel px py) ∧ (¬ hit px py → t.pixel px py = s.pixel px py)) ∧
      ((∃ px py, hit px py ∧ s.pixel px py = true) → t.reg 15 = 1) ∧
      ((¬ ∃ px py, hit px py ∧ s.pixel px py = true) → t.reg 15 = 0) := by
  have hcollision : (∃ p ∈ s.spritePixels (spriteX (s.reg x)) (spriteY (s.reg y)) n.toNat, s.pixel p.1 p.2 = true) ↔
      ∃ px py, hit px py ∧ s.pixel px py = true := by
    simp only [hhit, Prod.exists]
  refine ⟨_, exec_drw s x y n, exec_sameBut (exec_drw s x y n), fun px py => ⟨fun h => ?_, fun h => ?_⟩,
    fun h => ?_, fun h => ?_⟩
  · rw [State.pixel_drawSprite n.isLt, decide_eq_true ((hhit px py).1 h), Bool.xor_true]
  · exact (State.pixel_drawSprite_eq_iff n.isLt).2 (mt (hhit px py).2 h)
  · exact (State.reg_vf_drawSprite n.isLt).trans (if_pos (hcollision.2 h))
  · exact (State.reg_vf_drawSprite n.isLt).trans (if_neg (mt hcollision.1 h))

/-! ### The instructions -/

/-- Settles O38: a hit under `Clip` is a sprite pixel by `spritePixel_clip`. -/
theorem drawClipsAtTheEdges : Obligations.DrawClipsAtTheEdges := by
  refine ⟨decodesAs_drw, fun s x y n x0 y0 hit hclip hx0 hy0 hhit => exec_drw_of_hit fun px py => ?_⟩
  subst hx0 hy0
  rw [hhit, State.mem_spritePixels, hclip]
  simp only [spritePixel_clip, spriteX, spriteY, indexed, and_comm, and_left_comm]

/-- Settles O39: a hit under `Wrap` is a sprite pixel by `spritePixel_wrap`. -/
theorem drawWrapsAtTheEdges : Obligations.DrawWrapsAtTheEdges := by
  refine ⟨decodesAs_drw, fun s x y n x0 y0 hit hwrap hx0 hy0 hhit => exec_drw_of_hit fun px py => ?_⟩
  subst hx0 hy0
  rw [hhit, State.mem_spritePixels, hwrap]
  simp only [spritePixel_wrap, spriteX, spriteY, indexed, and_comm, and_left_comm]

/-- Settles O40: neither register of the anchor is VF, so the second draw toggles the same pixels as the first. -/
theorem drawingTwiceRestoresTheDisplay : Obligations.DrawingTwiceRestoresTheDisplay := by
  intro s x y n hx hy
  refine ⟨_, _, exec_drw s x y n, exec_drw _ x y n, ?_⟩
  rw [State.reg_drawSprite_of_ne_vf hx, State.reg_drawSprite_of_ne_vf hy]
  exact ⟨State.disp_drawSprite_drawSprite n.isLt, State.reg_vf_drawSprite_drawSprite_of_blank n.isLt⟩

/-- Settles O37: the words by family 0 and NN, the effect by `State.clearDisplay`. -/
theorem clearUnlightsEveryPixel : Obligations.ClearUnlightsEveryPixel := by
  refine ⟨decodesAs_of_family_of_byte (fun _ => rfl) fun _ => wordXNN_fields, fun s x => ?_⟩
  exact ⟨s.clearDisplay, rfl, s.sameBut_setDisp (by simp) _, fun y => Vector.getElem_replicate y.isLt,
    fun _ _ => State.pixel_clearDisplay _ _⟩

end Sys2Proof.Machine
end

section
/-! SUPPORT. Timers and input (45_timers_input.md): which words the instructions are decoded from, what each leaves in the
registers and the timers, and where the key tests leave PC. -/

namespace Sys2Proof.Machine

namespace State

variable (s : State)

/-- The sound output is on while ST is not 0 (R112). -/
theorem soundOn_iff : s.soundOn = true ↔ s.st ≠ 0 := by
  rw [soundOn, decide_eq_true_iff, Nat.pos_iff_ne_zero]
  exact (BitVec.toNat_eq (x := s.st) (y := 0)).not.symm

/-- Where a skip on a proposition leaves PC (41_control_flow.md R87). -/
theorem pc_skipIf_decide (p : Prop) [Decidable p] : (s.skipIf (decide p)).pc = if p then s.pc + 2 else s.pc := by
  simp only [skipIf_eq, setPc_pc, decide_eq_true_eq]

end State

/-! ### The wait for a key (R115) -/

/-- FX0A's X is the key index itself, so it always names a key (30_encoding.md R56). -/
theorem keyBit_reg (keys : Word) (x : Reg) : keyBit keys x.val = decide (keys.toNat / 2 ^ x.val % 2 = 1) := by
  rw [keyBit_eq_div, if_pos x.isLt]

/-- FX0A as one write of PC: the value it has when key X is held, back over the step's advance when not. -/
theorem exec_wkey (s : State) (x : Reg) :
    exec (.wkey x) s = .next (s.setPc (if s.keys.toNat / 2 ^ x.val % 2 = 1 then s.pc else s.pc - 2)) := by
  simp only [exec, execWkey, keyBit_reg, decide_eq_true_eq]
  split <;> rfl

/-! ### The instructions -/

/-- Settles O41: FX07 is one register write, FX15 and FX18 one timer write each; the sound output is read off ST. -/
theorem timersMoveThroughRegisters : Obligations.TimersMoveThroughRegisters := by
  refine ⟨decodesAs_of_family_of_byte (fun _ => rfl) fun _ => wordXNN_fields,
    decodesAs_of_family_of_byte (fun _ => rfl) fun _ => wordXNN_fields,
    decodesAs_of_family_of_byte (fun _ => rfl) fun _ => wordXNN_fields, fun s x => ⟨?_, ?_, ?_⟩⟩
  · exact ⟨_, rfl, s.reg_setReg_same x s.dt, exec_sameBut (i := .ldVxDT x) rfl⟩
  · exact ⟨_, rfl, rfl, exec_sameBut (i := .ldDT x) rfl⟩
  · exact ⟨_, rfl, rfl, exec_sameBut (i := .ldST x) rfl, State.soundOn_iff _⟩

/-- Settles O42: each skip is `State.skipIf` of the key's bit, which is 0 or 1. -/
theorem keySkipsFollowTheLatch : Obligations.KeySkipsFollowTheLatch := by
  refine ⟨decodesAs_of_family_of_byte (fun _ => rfl) fun _ => wordXNN_fields,
    decodesAs_of_family_of_byte (fun _ => rfl) fun _ => wordXNN_fields, fun s x bit hbit => ?_⟩
  have hheld : keyBit s.keys (s.reg x).toNat = decide (bit = 1) := hbit ▸ keyBit_eq_div _ _
  have hfree : (!keyBit s.keys (s.reg x).toNat) = decide (bit = 0) := by
    have hlt : bit < 2 := by rw [hbit]; split <;> omega
    rw [hheld, ← decide_not, decide_eq_decide]
    omega
  exact ⟨⟨_, rfl, hheld ▸ s.pc_skipIf_decide (bit = 1), exec_sameBut (i := .skp x) rfl⟩,
    ⟨_, rfl, hfree ▸ s.pc_skipIf_decide (bit = 0), exec_sameBut (i := .sknp x) rfl⟩⟩

/-- Settles O43: both values of the bit in the one write of PC that FX0A is. -/
theorem waitKeyRewindsUntilHeld : Obligations.WaitKeyRewindsUntilHeld := by
  refine ⟨decodesAs_of_family_of_byte (fun _ => rfl) fun _ => wordXNN_fields, fun s x => ?_⟩
  refine ⟨_, exec_wkey s x, s.sameBut_setPc (by simp) _, fun hnot => ?_, fun hheld => ?_⟩
  · rw [State.setPc_pc, if_neg (by omega)]
  · rw [State.setPc_pc, if_pos hheld]

end Sys2Proof.Machine
end

section
/-! SUPPORT. Faults and the other agents (60_exceptions.md): the moves while the engine has no step, timer ticks, the host's
moves, the fault output, and what construction refuses. -/

namespace Sys2Proof.Machine

variable {s t : State}

/-! ### An engine that has no step (R119, R135) -/

theorem engineReady_of_faulted (h : s.fault ≠ none) : s.engineReady = false := by
  rw [State.engineReady, Option.isNone_eq_false_iff.2 (Option.isSome_iff_ne_none.2 h), Bool.and_false]

theorem engineReady_of_shutDown (h : s.running = false) : s.engineReady = false := by
  simp [State.engineReady, h]

/-- A `step` strobe at an engine that has no step changes nothing. -/
theorem act_engineStep_of_not_ready (h : s.engineReady = false) : act .engineStep s = .next s := by
  simp [act, h]

theorem engineStep_of_stackOverflow (hrunning : s.running = true) (hfault : s.fault = some .stackOverflow) :
    engineStep s = .fault (.stackOverflow s.faultAddr) := by
  simp [engineStep, hrunning, hfault]

theorem engineStep_of_stackUnderflow (hrunning : s.running = true) (hfault : s.fault = some .stackUnderflow) :
    engineStep s = .fault (.stackUnderflow s.faultAddr) := by
  simp [engineStep, hrunning, hfault]

theorem engineStep_of_shutDown (h : s.running = false) : engineStep s = .fault .shutDown := by
  simp [engineStep, h]

/-- While the engine has no step, a move leaves all but the timers, KEYS and the running bit as it was. -/
theorem act_eq_of_not_ready {a : Action} (hidle : s.engineReady = false) (h : act a s = .next t) :
    t = { s with dt := t.dt, st := t.st, keys := t.keys, running := t.running } := by
  by_cases ha : a = .engineStep
  · rw [ha, act_engineStep_of_not_ready hidle] at h
    cases h
    rfl
  · exact (act_eq_of_ne_engineStep ha h).1

/-! ### The timers (R129, R130) -/

theorem timerTick_of_shutDown (h : s.running = false) : timerTick s = s := by
  simp [timerTick, h]

@[simp] theorem timerTick_running (s : State) : (timerTick s).running = s.running := by
  rw [timerTick_eq]

/-- R129 as the spec writes it, with the floor as a case of its own. -/
theorem toNat_countDown_eq_ite (b : Byte) : (countDown b).toNat = if b.toNat > 0 then b.toNat - 1 else 0 := by
  rw [toNat_countDown]
  split <;> omega

/-- Settles O48: induction over the ticks; one tick takes 1 off what the others take `n` off. -/
theorem timersReachZeroAndStay : Obligations.TimersReachZeroAndStay := by
  intro n
  induction n with
  | zero => exact fun s _ => ⟨rfl, rfl⟩
  | succ n ih =>
    intro s hrunning
    obtain ⟨hdt, hst⟩ := ih (timerTick s) (by simpa using hrunning)
    simp only [timerTick_of_running hrunning, toNat_countDown] at hdt hst
    rw [Function.iterate_succ_apply, timerTick_of_running hrunning, hdt, hst]
    omega

/-- Settles O47: a tick is `countDown` of both timers while the core runs, and nothing after shutdown. -/
theorem timerTickCountsBothDown : Obligations.TimerTickCountsBothDown := by
  intro s rest hagenda
  have hstep : step s = .next (timerTick { s with agenda := rest }) := step_of_agenda_cons s hagenda
  refine ⟨fun hrunning => ⟨_, hstep, ?_⟩, fun hstopped => ?_⟩
  · rw [timerTick_of_running (s := { s with agenda := rest }) hrunning]
    exact ⟨toNat_countDown_eq_ite s.dt, toNat_countDown_eq_ite s.st, rfl⟩
  · rw [hstep, timerTick_of_shutDown (s := { s with agenda := rest }) hstopped]

/-! ### Faults (R117 to R120) -/

/-- Settles O45: with FAULT set the agenda must hold a move, and no agent's move then writes what the engine owns. -/
theorem faultIsNeverCleared : Obligations.FaultIsNeverCleared := by
  intro s t c hfault h
  cases hagenda : s.agenda with
  | nil =>
    obtain ⟨-, hnone, -⟩ := engineStep_next s (step_of_agenda_nil s hagenda ▸ h)
    rw [hfault] at hnone
    cases hnone
  | cons a rest =>
    rw [step_of_agenda_cons s hagenda] at h
    have hidle : ({ s with agenda := rest } : State).engineReady = false := engineReady_of_faulted (by simp [hfault])
    rw [act_eq_of_not_ready hidle h]
    exact ⟨hfault, rfl, rfl, rfl, rfl, rfl, rfl, rfl, rfl, rfl⟩

/-- Settles O44: the entry is the full-stack case of CALL and the empty-stack case of RET; after it the engine is not ready,
which neither the timers nor the host look at. -/
theorem controlFlowFaultEntry : Obligations.ControlFlowFaultEntry := by
  refine ⟨fun s nnn => (callPushesReturnAddress.2 s nnn).2, fun s x => (retPopsTheCallStack.2 s x).2,
    fun s hrunning hagenda => ?_, fun s rest hfault => ⟨fun hagenda => ?_, fun hagenda hrunning => ?_, fun m hagenda => ?_⟩⟩
  · rw [step_of_agenda_nil s hagenda]
    exact ⟨engineStep_of_stackOverflow hrunning, engineStep_of_stackUnderflow hrunning⟩
  · rw [step_of_agenda_cons s hagenda]
    exact act_engineStep_of_not_ready (engineReady_of_faulted hfault)
  · refine ⟨_, step_of_agenda_cons s hagenda, ?_⟩
    rw [timerTick_of_running (s := { s with agenda := rest }) hrunning]
    exact toNat_countDown s.dt
  · exact ⟨_, step_of_agenda_cons s hagenda, rfl⟩

/-- Settles O46: FAULT has three values, and each has a code of its own. -/
theorem faultCodesOnThePort : Obligations.FaultCodesOnThePort := by
  intro s
  rcases hfault : s.fault with _ | _ | _ <;> simp [State.faultCode, hfault]

/-! ### The host (R122, R133, R135) -/

/-- After shutdown a move of any agent can write KEYS and nothing else. -/
theorem act_of_shutDown (h : s.running = false) (a : Action) : ∃ k, act a s = .next { s with keys := k } := by
  cases a with
  | engineStep => exact ⟨s.keys, act_engineStep_of_not_ready (engineReady_of_shutDown h)⟩
  | timerTick => exact ⟨s.keys, congrArg Host.Outcome.next (timerTick_of_shutDown h)⟩
  | writeKeys m => exact ⟨m, rfl⟩
  | shutdown => exact ⟨s.keys, by rw [act, shutDown, ← h]⟩

/-- Settles O50: the host's moves are one write each, and after shutdown `act_of_shutDown` says what is left to any agent. -/
theorem hostWritesKeysAndShutsDown : Obligations.HostWritesKeysAndShutsDown := by
  refine ⟨fun s m rest hagenda => step_of_agenda_cons s hagenda, fun s rest hagenda => step_of_agenda_cons s hagenda,
    fun s hstopped hagenda => ?_, fun s a rest hstopped hagenda => ?_⟩
  · rw [step_of_agenda_nil s hagenda, engineStep_of_shutDown hstopped]
  · obtain ⟨k, hact⟩ := act_of_shutDown (s := { s with agenda := rest }) hstopped a
    exact ⟨_, (step_of_agenda_cons s hagenda).trans hact, hstopped, rfl, rfl, rfl, rfl, rfl, rfl, rfl⟩

theorem construct_of_tooLong (cfg : Config) (l : Launch) {rom : List Byte} (h : 3584 < rom.length) :
    construct cfg l (some rom) = .refused (.romTooLong rom.length) := if_pos h

theorem construct_of_fits (cfg : Config) (l : Launch) {rom : List Byte} (h : ¬ 3584 < rom.length) :
    ∃ s, construct cfg l (some rom) = .next s := ⟨_, if_neg h⟩

/-- Settles O52: a ROM that fits constructs a core, a longer one is refused. -/
theorem constructionRefusesBadRom : Obligations.ConstructionRefusesBadRom := by
  refine fun cfg l => ⟨rfl, fun rom => ⟨⟨fun hlong s h => ?_, fun hnone => ?_⟩, construct_of_tooLong cfg l⟩⟩
  · rw [construct_of_tooLong cfg l hlong] at h
    cases h
  · by_contra hfits
    obtain ⟨s, hs⟩ := construct_of_fits cfg l hfits
    exact hnone s hs

end Sys2Proof.Machine
end

section
/-! SUPPORT. Construction (70_reset_and_hazards.md R139 to R142): what each byte of memory holds after the font and the ROM are
loaded, and the first fetch. -/

namespace Sys2Proof.Machine

/-! ### The loader, inside and outside the bytes it loads -/

namespace Memory

variable {cfg : Config} {m : List Host.Cell} {a b : Nat} {bs : List Byte}

theorem read_writeBytes_inside {k : Nat} (hk : k < bs.length) : read cfg (writeBytes cfg m a bs) (a + k) = bs[k] := by
  rw [read_writeBytes, dif_pos (by omega)]
  simp only [Nat.add_sub_cancel_left]

theorem read_writeBytes_outside (hb : ¬ (a ≤ b ∧ b < a + bs.length)) :
    read cfg (writeBytes cfg m a bs) b = read cfg m b := by
  rw [read_writeBytes, dif_neg (by omega)]

end Memory

/-! ### Memory after construction (R139 steps 2 to 4) -/

section
variable (cfg : Config) (cells : List Host.Cell)

theorem wf_initialMemory {rom : List Byte} (hfits : rom.length ≤ 3584) : Memory.wf cfg (initialMemory cfg cells rom) := by
  have hfont : cfg.fontBase.val + cfg.fontData.toList.length ≤ 4096 := by
    rw [Vector.length_toList]
    omega
  exact Memory.wf_writeBytes (Memory.wf_writeBytes (wf_allocate cfg cells) hfont) (by omega)

/-- The ROM is copied last, so it stands at 0x200 whatever was there (R141). -/
theorem read_initialMemory_rom {rom : List Byte} {k : Nat} (hk : k < rom.length) :
    Memory.read cfg (initialMemory cfg cells rom) (0x200 + k) = rom[k] :=
  Memory.read_writeBytes_inside hk

/-- The font ends below 0x200, so the ROM leaves it as it was loaded (R142). -/
theorem read_initialMemory_font (rom : List Byte) (k : Fin 80) :
    Memory.read cfg (initialMemory cfg cells rom) (cfg.fontBase.val + k.val) = cfg.fontData[k.val] := by
  have hk : k.val < cfg.fontData.toList.length := by
    rw [Vector.length_toList]
    exact k.isLt
  rw [initialMemory, Memory.read_writeBytes_outside (by omega), Memory.read_writeBytes_inside hk, Vector.getElem_toList]

theorem read_initialMemory_elsewhere {rom : List Byte} {a : Nat}
    (hfont : ¬ (cfg.fontBase.val ≤ a ∧ a < cfg.fontBase.val + 80)) (hrom : ¬ (0x200 ≤ a ∧ a < 0x200 + rom.length)) :
    Memory.read cfg (initialMemory cfg cells rom) a = Memory.read cfg (allocate cfg cells) a := by
  rw [initialMemory, Memory.read_writeBytes_outside hrom,
    Memory.read_writeBytes_outside (by rwa [Vector.length_toList])]

end

/-! ### The first fetch -/

/-- An engine at 0x200 with a ROM loaded there fetches the ROM's first two bytes (R40, R141). -/
theorem State.toNat_fetchWord_of_rom {s : State} {rom : List Byte} (hpc : s.pc = 0x200)
    (hrom : ∀ k, (h : k < rom.length) → Memory.read s.cfg s.mem (0x200 + k) = rom[k]) (hlen : 2 ≤ rom.length) :
    s.fetchWord.toNat = (rom[0]?.getD 0).toNat * 256 + (rom[1]?.getD 0).toNat := by
  have hhigh : Memory.read s.cfg s.mem (s.pc.toNat % 4096) = rom[0] := hpc ▸ hrom 0 (by omega)
  have hlow : Memory.read s.cfg s.mem ((s.pc.toNat + 1) % 4096) = rom[1] := hpc ▸ hrom 1 (by omega)
  rw [s.toNat_fetchWord_eq_read, hhigh, hlow, List.getElem?_eq_getElem, List.getElem?_eq_getElem, Option.getD_some,
    Option.getD_some]

/-- Settles O51: the registers by definition, memory by the three cases of `initialMemory`, and the fetch from the ROM's. -/
theorem constructionLoadsFontAndRom : Obligations.ConstructionLoadsFontAndRom := by
  intro cfg l rom hfits
  refine ⟨_, if_neg (Nat.not_lt.2 hfits), .of_fault_none (wf_initialMemory cfg l.mem hfits) rfl,
    rfl, rfl, rfl, rfl, rfl, rfl, rfl, rfl, rfl, rfl, rfl, rfl, rfl, rfl,
    read_initialMemory_font cfg l.mem rom, fun _ => read_initialMemory_rom cfg l.mem,
    fun _ _ => read_initialMemory_elsewhere cfg l.mem,
    State.toNat_fetchWord_of_rom rfl fun _ => read_initialMemory_rom cfg l.mem⟩

end Sys2Proof.Machine
end
